-- ==== Sys2Proof/Word.lean ====
section
/-! DEFINITION. The ENGINE's values that the spec treats as bits, by width (00_scope.md rule R12). -/

namespace Sys2Proof

/-- A byte: a payload, a column, a row, a count, a flag, a status byte (R12). -/
abbrev Byte := BitVec 8

/-- A nibble, the unit of every bus transfer (R12). -/
abbrev Nibble := BitVec 4

/-- A host command word, format `HOST32` (30_encoding.md rule R81). -/
abbrev HostWord := BitVec 32

/-- A queue storage word, format `ENTRY16` (30_encoding.md rule R87). -/
abbrev EntryWord := BitVec 16

/-- One byte transfer on the bus, format `BUS10`: RS, RW, D7..D0 (30_encoding.md rule R89). -/
abbrev BusWord := BitVec 10

/-- One nibble transfer on the bus, format `NIB6`: RS, RW, D3..D0 (30_encoding.md rule R89). -/
abbrev NibbleWord := BitVec 6

end Sys2Proof
end

