-- ==== Sys2Proof/Syntax.lean ====
section
/-! DEFINITION. The instructions: one constructor per row of spec/opcode_table.json, the queue's
entries, and the words in which instructions are presented. -/

namespace Sys2Proof

/-- The 21 rows of the opcode table: the nine host operations (00_scope.md rule R4), the two queue
entries the scheduler executes (R4, 30_encoding.md rule R87), the eight byte transfers and the two
bring-up nibbles of the bus (30_encoding.md rules R89 to R94). -/
inductive Instr where
  /-- `Init()`, 44_init.md rule R200. -/
  | init
  /-- `Update()`, 43_scheduler.md rule R170. -/
  | update
  /-- `Clear()`, 42_encoder.md rule R131. -/
  | clear
  /-- `Home()`, 42_encoder.md rule R132. -/
  | home
  /-- `SetPosition(column, row)`, 42_encoder.md rule R133. -/
  | setPosition (column row : Byte)
  /-- `PutChar(c)`, 42_encoder.md rule R134. -/
  | putChar (c : Byte)
  /-- `PutString(s)`, 42_encoder.md rule R135; `s` is the whole `STR` operand as delivered, its
  terminator and what follows it included (30_encoding.md rule R85). -/
  | putString (s : List Byte)
  /-- `ShiftDisplay(count, direction)`, 42_encoder.md rule R136. -/
  | shiftDisplay (count direction : Byte)
  /-- `SetCursorStyle(cursorOn, blinkOn)`, 42_encoder.md rule R137. -/
  | setCursorStyle (cursorOn blinkOn : Byte)
  /-- The entry `Command(b)`: send `b` with RS low (R170). -/
  | command (payload : Byte)
  /-- The entry `Data(b)`: send `b` with RS high (R170). -/
  | data (payload : Byte)
  /-- Byte transfer 0x01, RS low (R91). -/
  | clearDisplay
  /-- Byte transfer 0x02, RS low (R91). -/
  | returnHome
  /-- Byte transfer 0x0C with the cursor and blink bits, RS low (R92). -/
  | displayControl (cursor blink : Bool)
  /-- Byte transfer 0x18 with the direction bit, RS low (R92). -/
  | displayShift (right : Bool)
  /-- Byte transfer 0x28, RS low (R92). -/
  | functionSet
  /-- Byte transfer 0x80 with a 7-bit address, RS low (R92). -/
  | setDdramAddress (address : BitVec 7)
  /-- Byte transfer of a data byte, RS high (R89). -/
  | writeData (c : Byte)
  /-- The status transfer; `busy` and `unused` are the bits D7 and D6..D0 that the device drove
  (R90). -/
  | readStatus (busy : Bool) (unused : BitVec 7)
  /-- The single nibble 0011 of the bring-up (R93). -/
  | bringUp0011
  /-- The single nibble 0010 of the bring-up (R93). -/
  | bringUp0010
deriving DecidableEq, Repr

/-- A queue entry: a tagged byte (10_state.md rule R35). -/
inductive Entry where
  | command (payload : Byte)
  | data (payload : Byte)
deriving DecidableEq, Repr

/-- A word in one of the formats of 30_encoding.md rule R80, with the `STR` operand where the host
delivers one beside its command word (00_scope.md rule R18). -/
inductive Presented where
  /-- The host presents an operation: the only words the spec's host presents (R18). -/
  | host32 (w : HostWord) (str : List Byte)
  /-- A queue storage word, run on its own (log entry 9). -/
  | entry16 (w : EntryWord)
  /-- A byte transfer, run on its own (log entry 10). -/
  | bus10 (w : BusWord)
  /-- A nibble transfer, run on its own (log entry 10). -/
  | nib6 (w : NibbleWord)
deriving DecidableEq, Repr

/-- Why a presented word encodes nothing. -/
inductive DecodeError where
  /-- The host word selects no operation (30_encoding.md rule R83). -/
  | illegalOperation
  /-- The storage word's tag encodes no entry (30_encoding.md rule R87). -/
  | illegalTag
  /-- The byte transfer is none the ENGINE makes (30_encoding.md rule R94). -/
  | noTransfer
  /-- The nibble transfer is neither bring-up nibble (30_encoding.md rules R93, R94). -/
  | noBringUpNibble
deriving DecidableEq, Repr

end Sys2Proof
end

