-- ==== Sys2Proof/Decode.lean ====
section
/-! DEFINITION. Decoding of the presented words, total, rejecting by name, and the encoder, each
written from the tables of 30_encoding.md. -/

namespace Sys2Proof

/-- `OP`, bits 31:24 of a host command word (R81). -/
def opField (w : HostWord) : Byte := w.extractLsb' 24 8

/-- `RSV`, bits 23:16 (R81). -/
def rsvField (w : HostWord) : Byte := w.extractLsb' 16 8

/-- `B`, bits 15:8 (R81). -/
def bField (w : HostWord) : Byte := w.extractLsb' 8 8

/-- `A`, bits 7:0 (R81). -/
def aField (w : HostWord) : Byte := w.extractLsb' 0 8

/-- Decoding of a host command word (R82 to R84); `none` is `IllegalOperation`. The `STR` operand is
handed on and never read (R83). -/
def decodeHost (w : HostWord) (str : List Byte) : Option Instr :=
  if rsvField w = 0 then
    match (opField w).toNat with
    | 0 => if bField w = 0 ∧ aField w = 0 then some .init else none
    | 1 => if bField w = 0 ∧ aField w = 0 then some .update else none
    | 2 => if bField w = 0 ∧ aField w = 0 then some .clear else none
    | 3 => if bField w = 0 ∧ aField w = 0 then some .home else none
    | 4 => some (.setPosition (aField w) (bField w))
    | 5 => if bField w = 0 then some (.putChar (aField w)) else none
    | 6 => if bField w = 0 ∧ aField w = 0 then some (.putString str) else none
    | 7 => some (.shiftDisplay (aField w) (bField w))
    | 8 => some (.setCursorStyle (aField w) (bField w))
    | _ => none
  else none

/-- `TAG_CMD` (00_scope.md rule R11). -/
def tagCommand : Byte := 0x00

/-- `TAG_DATA` (00_scope.md rule R11). -/
def tagData : Byte := 0x01

/-- Decoding of a queue storage word (R87); `none` is `Illegal(w)`. -/
def decodeEntry (w : EntryWord) : Option Entry :=
  if w.extractLsb' 8 8 = tagCommand then some (.command (w.extractLsb' 0 8))
  else if w.extractLsb' 8 8 = tagData then some (.data (w.extractLsb' 0 8))
  else none

/-- The micro-instruction an entry is (00_scope.md rule R4). -/
def Entry.toInstr : Entry → Instr
  | .command b => .command b
  | .data b => .data b

/-- The byte transfers with RS and RW low: the command bytes the ENGINE sends (R91, R92). -/
def decodeBusCommand (d : Byte) : Option Instr :=
  if d = 0x01 then some .clearDisplay
  else if d = 0x02 then some .returnHome
  else if d &&& 0xFC = 0x0C then some (.displayControl (d.getLsbD 1) (d.getLsbD 0))
  else if d &&& 0xFB = 0x18 then some (.displayShift (d.getLsbD 2))
  else if d = 0x28 then some .functionSet
  else if d.getLsbD 7 then some (.setDdramAddress (d.extractLsb' 0 7))
  else none

/-- Decoding of a byte transfer (R89 to R94): RS is bit 9, RW bit 8. A read with RS high is none of
the ENGINE's transfers (R94). -/
def decodeBus (w : BusWord) : Option Instr :=
  match w.getLsbD 9, w.getLsbD 8 with
  | false, false => decodeBusCommand (w.extractLsb' 0 8)
  | false, true => some (.readStatus (w.getLsbD 7) (w.extractLsb' 0 7))
  | true, false => some (.writeData (w.extractLsb' 0 8))
  | true, true => none

/-- Decoding of a nibble transfer (R93). -/
def decodeNibble (w : NibbleWord) : Option Instr :=
  if w = 0x03 then some .bringUp0011
  else if w = 0x02 then some .bringUp0010
  else none

/-- Decoding, total on every presented word. -/
def decode : Presented → Except DecodeError Instr
  | .host32 w str =>
    match decodeHost w str with
    | some i => .ok i
    | none => .error .illegalOperation
  | .entry16 w =>
    match decodeEntry w with
    | some e => .ok e.toInstr
    | none => .error .illegalTag
  | .bus10 w =>
    match decodeBus w with
    | some i => .ok i
    | none => .error .noTransfer
  | .nib6 w =>
    match decodeNibble w with
    | some i => .ok i
    | none => .error .noBringUpNibble

/-- The `HOST32` layout, `RSV` zero (R81). -/
def hostWord (op b a : Byte) : HostWord := op ++ (0x00 : Byte) ++ b ++ a

/-- The `ENTRY16` layout (R87). -/
def entryWord : Entry → EntryWord
  | .command b => tagCommand ++ b
  | .data b => tagData ++ b

/-- The `BUS10` layout (R89). -/
def busWord (rs rw : Bool) (d : Byte) : BusWord := BitVec.ofBool rs ++ BitVec.ofBool rw ++ d

/-- The word of an instruction, from the same tables (R82, R87, R89 to R93). -/
def encode : Instr → Presented
  | .init => .host32 (hostWord 0x00 0 0) []
  | .update => .host32 (hostWord 0x01 0 0) []
  | .clear => .host32 (hostWord 0x02 0 0) []
  | .home => .host32 (hostWord 0x03 0 0) []
  | .setPosition column row => .host32 (hostWord 0x04 row column) []
  | .putChar c => .host32 (hostWord 0x05 0 c) []
  | .putString s => .host32 (hostWord 0x06 0 0) s
  | .shiftDisplay count direction => .host32 (hostWord 0x07 direction count) []
  | .setCursorStyle cursorOn blinkOn => .host32 (hostWord 0x08 blinkOn cursorOn) []
  | .command b => .entry16 (entryWord (.command b))
  | .data b => .entry16 (entryWord (.data b))
  | .clearDisplay => .bus10 (busWord false false 0x01)
  | .returnHome => .bus10 (busWord false false 0x02)
  | .displayControl cursor blink =>
    .bus10 (busWord false false ((0b000011 : BitVec 6) ++ BitVec.ofBool cursor ++ BitVec.ofBool blink))
  | .displayShift right =>
    .bus10 (busWord false false ((0b00011 : BitVec 5) ++ BitVec.ofBool right ++ (0b00 : BitVec 2)))
  | .functionSet => .bus10 (busWord false false 0x28)
  | .setDdramAddress address => .bus10 (busWord false false ((0b1 : BitVec 1) ++ address))
  | .writeData c => .bus10 (busWord true false c)
  | .readStatus busy unused => .bus10 (busWord false true (BitVec.ofBool busy ++ unused))
  | .bringUp0011 => .nib6 0x03
  | .bringUp0010 => .nib6 0x02

/-- The presented word that a row of the opcode table stands for, by its width in whole bytes (log
entry 11): 32 bits are a host command word, 16 bits a byte transfer where one has these bits and a
storage word otherwise, 8 bits a nibble transfer. A `PutString` word is followed by an operand of
zeros, the empty string. -/
def tableWord (nbits w : Nat) : Option Presented :=
  match nbits with
  | 32 =>
    if w < 2 ^ 32 then some (.host32 (BitVec.ofNat 32 w) (if w / 2 ^ 24 = 6 then [0x00] else []))
    else none
  | 16 =>
    if w < 2 ^ 10 ∧ (decodeBus (BitVec.ofNat 10 w)).isSome then some (.bus10 (BitVec.ofNat 10 w))
    else if w < 2 ^ 16 then some (.entry16 (BitVec.ofNat 16 w))
    else none
  | 10 => if w < 2 ^ 10 then some (.bus10 (BitVec.ofNat 10 w)) else none
  | 8 | 6 => if w < 2 ^ 6 then some (.nib6 (BitVec.ofNat 6 w)) else none
  | _ => none

/-- What the decoder reads from a word numbered as spec/opcode_table.json numbers it. -/
def decodeTableWord (nbits w : Nat) : Option Instr :=
  match tableWord nbits w with
  | some p =>
    match decode p with
    | .ok i => some i
    | .error _ => none
  | none => none

end Sys2Proof
end

