-- ==== Sys2Proof/Config.lean ====
section
/-! DEFINITION. What an implementation fixes (00_scope.md rule R11) and the free values: constants
with no body, of which nothing can be proved but what the spec's constraints say. -/

namespace Sys2Proof

/-- The parameters of 00_scope.md rule R11 that an implementation fixes. Only the rows of `QCAP` and
`INIT_POLL_LIMIT` (a count of status reads) say that the value is an integer. DESIGN CHOICE (log entry
15): the four delays and `TIME_UNIT` are natural numbers too, so that `T3 > 0` reads `T3 >= 1`. -/
structure Params where
  /-- `QCAP`, the queue's capacity in entries. -/
  qcap : Nat
  /-- `T_PWR`, the power-up settling delay, in whole `TIME_UNIT`s (log entry 15). -/
  tPwr : Nat
  /-- `T1`, the delay after the first `0011` nibble (log entry 15). -/
  t1 : Nat
  /-- `T2`, the delay after the second (log entry 15). -/
  t2 : Nat
  /-- `T3`, the delay after the third (log entry 15). -/
  t3 : Nat
  /-- `TIME_UNIT`, the unit of every delay, as a number (log entry 15); no rule reads it. -/
  timeUnit : Nat
  /-- `INIT_POLL_LIMIT`, the most status reads of one busy-poll loop of `Init`. -/
  initPollLimit : Nat
deriving DecidableEq, Repr

/-- The constraints of the table of R11. -/
abbrev Params.Ok (p : Params) : Prop :=
  0 < p.qcap ∧ 50 ≤ p.tPwr ∧ 0 < p.t3 ∧ p.t3 < p.t2 ∧ p.t2 < p.t1 ∧ 1 ≤ p.initPollLimit

/-- FREE VALUE (10_state.md rule R45): the device's answer to the n-th nibble drawn after the answers
listed in the state have run out. -/
opaque Config.deviceNibble : Nat → Nibble

/-- FREE VALUE (10_state.md rules R37, R50; 93_implementation_defined.md U5): the word a slot of `QS`
holds before anything has been written there. -/
opaque Config.slotWord : Nat → EntryWord

/-- FREE VALUE: how far `T_PWR` lies above its bound of 50. -/
opaque Config.tPwrExcess : Nat

/-- FREE VALUE: how far `T3` lies above 1, the least whole number above its bound of 0 (log
entry 15). -/
opaque Config.t3Excess : Nat

/-- FREE VALUE: how far `T2` lies above `T3 + 1`, the least whole number above `T3` (log entry
15). -/
opaque Config.t2Excess : Nat

/-- FREE VALUE: how far `T1` lies above `T2 + 1`, the least whole number above `T2` (log entry
15). -/
opaque Config.t1Excess : Nat

/-- FREE VALUE: `TIME_UNIT`, as a number (log entry 15). -/
opaque Config.timeUnit : Nat

/-- FREE VALUE: how far `INIT_POLL_LIMIT` lies above its bound of 1. -/
opaque Config.pollLimitExcess : Nat

/-- The parameters of the instance that `State.reset` creates: `QCAP` at its stated default 128, the
OPEN rows of R11 at uninterpreted whole numbers that meet the stated constraints (log entries 3, 15). -/
def Config.resetParams : Params where
  qcap := 128
  tPwr := 50 + Config.tPwrExcess
  t1 := 3 + Config.t3Excess + Config.t2Excess + Config.t1Excess
  t2 := 2 + Config.t3Excess + Config.t2Excess
  t3 := 1 + Config.t3Excess
  timeUnit := Config.timeUnit
  initPollLimit := 1 + Config.pollLimitExcess

end Sys2Proof
end

