-- ==== Sys2Proof/Machine/State.lean ====
section
/-! DEFINITION. The state of one ENGINE instance, everything of 10_state.md rule R33, as plain data. -/

namespace Sys2Proof.Machine

/-- The life-cycle state (10_state.md rule R34). -/
inductive Phase where
  /-- `Init` has not completed successfully. -/
  | uninit
  /-- `Init` has completed. -/
  | ready
  /-- The scheduler met an entry with an unrecognised tag. -/
  | faulted
deriving DecidableEq, Repr

/-- The result codes of 60_exceptions.md rule R232, in its order. -/
inductive ResultCode where
  | ok
  | invalidRow
  | invalidDirection
  | invalidParameter
  | queueFull
  | protocolFault
  | hardwareFault
  | notInitialized
  | alreadyInitialized
  | unterminated
  | illegalOperation
deriving DecidableEq, Repr

/-- A control line's last level; `undef` is the spec's own value, no level set yet (10_state.md rules
R33, R50). -/
inductive Level where
  | undef
  | low
  | high
deriving DecidableEq, Repr

/-- The data lines' last direction (R33). -/
inductive Direction where
  | undef
  | input
  | output
deriving DecidableEq, Repr

/-- The nibble most recently written (R33). -/
inductive DataLatch where
  | undef
  | nibble (v : Nibble)
deriving DecidableEq, Repr

/-- The enable line between events: only ever low once it has been pulsed (R33). -/
inductive EnableLatch where
  | undef
  | low
deriving DecidableEq, Repr

/-- The bus latches (10_state.md rules R33, R39). -/
structure Bus where
  /-- `bus.rs`, register select. -/
  rs : Level
  /-- `bus.rw`, read/write; high is read. -/
  rw : Level
  /-- `bus.dir`, data-line direction. -/
  dir : Direction
  /-- `bus.d`, the nibble most recently written. -/
  d : DataLatch
  /-- `bus.e`, enable. -/
  e : EnableLatch
deriving DecidableEq, Repr

/-- The latches before the ENGINE has set any level (R50). -/
def Bus.unset : Bus := ⟨.undef, .undef, .undef, .undef, .undef⟩

/-- The eight primitives of the bus port (10_state.md rule R47). -/
inductive BusEvent where
  | setRS (high : Bool)
  | setRW (read : Bool)
  | dirOut
  | dirIn
  | writeNibble (v : Nibble)
  /-- `ReadNibble->v`: the device answered `v`. -/
  | readNibble (v : Nibble)
  | pulseEnable
  /-- `Delay(d)`, `d` in units of `TIME_UNIT`. -/
  | delay (d : Nat)
deriving DecidableEq, Repr

/-- What the host asked for: an operation, or a word that selects none (30_encoding.md rule R83). -/
inductive HostCall where
  | operation (i : Instr)
  | illegalWord (w : HostWord)
deriving DecidableEq, Repr

/-- One host operation with the code it returned (10_state.md rule R43). -/
structure HostResult where
  call : HostCall
  code : ResultCode
deriving DecidableEq, Repr

/-- The queue storage space `QS`: the words written to its slots, by index, strictly rising. The slot is
the smallest unit any access touches (20_memory.md rules R64, R66). A slot not listed holds the word
that was there before anything was written, a free value (log entry 2). -/
abbrev Memory := List (Nat × EntryWord)

/-- The state of one ENGINE instance. -/
@[ext]
structure State where
  /-- The configuration; no step changes it (10_state.md rule R42, log entry 3). -/
  params : Params
  /-- `phase` (R34). -/
  phase : Phase
  /-- `QS` (R37). -/
  slots : Memory
  /-- `head`, the index of the oldest entry's slot (R37). -/
  head : Nat
  /-- `count`, the number of entries pending (R37). -/
  count : Nat
  /-- The bus latches (R39). -/
  bus : Bus
  /-- `trace`, the events emitted, oldest first (R33, R43). -/
  trace : List BusEvent
  /-- The host operations and their result codes, oldest first: with `trace` the observation of a run
  (R43, log entry 5). -/
  results : List HostResult
  /-- INPUT: the words presented and not yet taken, the next first (00_scope.md rule R18, log entry 4). -/
  presented : List Presented
  /-- INPUT: the device's next answers to `ReadNibble` (R45, log entry 6). -/
  device : List Nibble
  /-- The model's own counter of nibbles drawn, behind `Config.deviceNibble` (log entry 6). -/
  draws : Nat
deriving DecidableEq, Repr

/-- Where the machine stops with a fault. -/
inductive Fault where
  /-- Raised by `MemRead` and `MemWrite`, so by a dequeue (`Update`) or an enqueue, whose index names no
  slot of `QS`: `0 <= i < QCAP` fails (00_scope.md rule R15). Safe: no run from reset reaches it. -/
  | noSuchSlot
deriving DecidableEq, Repr

/-- How a queue primitive ends early: it raises a code (41_queue.md rules R111, R115), or it stops on
a slot that does not exist. -/
inductive Raise where
  | code (c : ResultCode)
  | stop (f : Fault)
deriving DecidableEq, Repr

/-- Where the model gives a presented word no meaning. -/
inductive Refusal where
  /-- Raised by `exec` for an instruction with no meaning in the model; no arm raises it. Safe. -/
  | notModelled (mnemonic : String)
  /-- Raised by `step` for a storage word presented on its own whose tag encodes no entry
  (30_encoding.md rule R87): it is no micro-instruction. `Update` itself takes such a word to
  `FAULTED`. Safe. -/
  | noEntry
  /-- Raised by `step` for a byte or nibble transfer presented on its own that is none of the ENGINE's
  (30_encoding.md rule R94). Safe. -/
  | noTransfer
deriving DecidableEq, Repr

/-- The instance right after its creation (10_state.md rule R50, 70_reset_and_hazards.md rule R270):
`phase = UNINIT`, an empty trace, the latches `UNDEF`. The queue is unspecified there: DESIGN CHOICE
`head = 0`, `count = 0` (log entry 1); every slot holds a free word (log entry 2). -/
def State.reset : State where
  params := Config.resetParams
  phase := .uninit
  slots := []
  head := 0
  count := 0
  bus := Bus.unset
  trace := []
  results := []
  presented := []
  device := []
  draws := 0

end Sys2Proof.Machine
end

