-- ==== Sys2Proof/Machine/Flags.lean ====
section
/-! DEFINITION. The ENGINE has no condition codes (10_state.md rule R32). Its flag-like values are the
busy flag of a status byte and the gate that `phase` puts before every operation; the numbers and
classes of the result codes stand beside them. -/

namespace Sys2Proof.Machine

/-- The busy flag, bit `BUSY_BIT` = 7 of the status byte (10_state.md rule R44). -/
def busy (status : Byte) : Bool := status.getLsbD 7

/-- The prologue of every operation but `Init`: the code it returns at once, if any (42_encoder.md
rule R130, 43_scheduler.md rule R170). -/
def gate : Phase → Option ResultCode
  | .faulted => some .protocolFault
  | .uninit => some .notInitialized
  | .ready => none

/-- The prologue of `Init` (44_init.md rule R200). -/
def initGate : Phase → Option ResultCode
  | .faulted => some .protocolFault
  | .ready => some .alreadyInitialized
  | .uninit => none

/-- The numeric value of a result code (60_exceptions.md rule R232). -/
def ResultCode.value : ResultCode → Byte
  | .ok => 0x00
  | .invalidRow => 0x01
  | .invalidDirection => 0x02
  | .invalidParameter => 0x03
  | .queueFull => 0x04
  | .protocolFault => 0x05
  | .hardwareFault => 0x06
  | .notInitialized => 0x07
  | .alreadyInitialized => 0x08
  | .unterminated => 0x09
  | .illegalOperation => 0x0A

/-- An error the source calls recoverable, `HardwareFault` included (60_exceptions.md rule R231). -/
def ResultCode.isError : ResultCode → Bool
  | .invalidRow | .invalidDirection | .invalidParameter | .queueFull | .hardwareFault => true
  | .ok | .protocolFault | .notInitialized | .alreadyInitialized | .unterminated => false
  | .illegalOperation => false

/-- The fatal fault (R231). -/
def ResultCode.isFatal : ResultCode → Bool
  | .protocolFault => true
  | .ok | .invalidRow | .invalidDirection | .invalidParameter | .queueFull => false
  | .hardwareFault | .notInitialized | .alreadyInitialized | .unterminated => false
  | .illegalOperation => false

/-- A usage fault: a call that breaks a precondition the source states (R231). -/
def ResultCode.isUsageFault : ResultCode → Bool
  | .notInitialized | .alreadyInitialized | .unterminated | .illegalOperation => true
  | .ok | .invalidRow | .invalidDirection | .invalidParameter | .queueFull => false
  | .protocolFault | .hardwareFault => false

end Sys2Proof.Machine
end

