-- ==== Sys2Proof/Machine/Operands.lean ====
section
/-! DEFINITION. The operand forms of the host operations: the constants of 00_scope.md rule R11, the
validation of each operand (60_exceptions.md rule R234, class 4) and the bytes the operands give. -/

namespace Sys2Proof.Machine

/-- `TERM`, the terminator of a `STR` operand (R11). -/
def terminator : Byte := 0x00

/-- `DIR_RIGHT`; `DIR_LEFT` is 0 (R11). -/
def dirRight : Byte := 1

/-- `CURSOR_BIT` (R11). -/
def cursorBit : Byte := 0x02

/-- `BLINK_BIT` (R11). -/
def blinkBit : Byte := 0x01

/-- `ROW_BASE[row]` for the two rows (R11). -/
def rowBase (row : Byte) : Nat := if row = 0 then 0x00 else 0x40

/-- The display has the rows 0 and 1 (42_encoder.md rule R133). -/
def checkRow (row : Byte) : Option ResultCode :=
  if 1 < row.toNat then some .invalidRow else none

/-- The directions are 0 and 1 (42_encoder.md rule R136). -/
def checkDirection (direction : Byte) : Option ResultCode :=
  if 1 < direction.toNat then some .invalidDirection else none

/-- Each style flag is 0 or 1, one code for both (42_encoder.md rule R137). -/
def checkStyle (cursorOn blinkOn : Byte) : Option ResultCode :=
  if 1 < cursorOn.toNat ∨ 1 < blinkOn.toNat then some .invalidParameter else none

/-- A `STR` operand holds a terminator (30_encoding.md rule R85). -/
def checkTerminated (s : List Byte) : Option ResultCode :=
  if s.any (· == terminator) then none else some .unterminated

/-- The effective string: the prefix before the first terminator (30_encoding.md rule R85). -/
def effectiveString (s : List Byte) : List Byte := s.takeWhile (· != terminator)

/-- The 7-bit DDRAM address of a position, `(ROW_BASE[row] + column) & 0x7F` on unbounded integers
(42_encoder.md rules R133, R140). -/
def ddramAddress (column row : Byte) : Nat := (rowBase row + column.toNat) &&& 0x7F

/-- The Set-DDRAM-address command byte, `0x80 | a` (42_encoder.md rule R133). -/
def setAddressByte (column row : Byte) : Byte := 0x80 ||| BitVec.ofNat 8 (ddramAddress column row)

/-- The cursor/display shift command byte (42_encoder.md rule R136). -/
def shiftByte (right : Bool) : Byte := if right then 0x18 ||| 0x04 else 0x18

/-- The display on/off control command byte, display always on (42_encoder.md rule R137). -/
def styleByte (cursor blink : Bool) : Byte :=
  0x08 ||| 0x04 ||| (if blink then blinkBit else 0) ||| (if cursor then cursorBit else 0)

/-- `FUNCTION_SET_BYTE` (R11). -/
def functionSetByte : Byte := 0x28

/-- The clear-display command byte (30_encoding.md rule R91). -/
def clearByte : Byte := 0x01

/-- The return-home command byte (30_encoding.md rule R91). -/
def homeByte : Byte := 0x02

/-- The three set-up bytes of `Init` step 4 (44_init.md rule R205). -/
def setupBytes : List Byte := [functionSetByte, styleByte true true, clearByte]

/-- The high half of a byte, sent first (20_memory.md rule R63). -/
def highNibble (b : Byte) : Nibble := b.extractLsb' 4 4

/-- The low half of a byte (20_memory.md rule R63). -/
def lowNibble (b : Byte) : Nibble := b.extractLsb' 0 4

/-- The byte of two nibbles, the first read in the high half (10_state.md rule R44). -/
def joinNibbles (hi lo : Nibble) : Byte := hi ++ lo

end Sys2Proof.Machine
end

