-- ==== Sys2Proof/Machine/Ops.lean ====
section
/-! DEFINITION. The named operations over the state: the queue storage and its ring, the bus port, the
result of a host operation, and taking the next presented word. An error takes no trap: it is the
result code an operation returns (60_exceptions.md rules R230, R235), so returning a code is the one
shared operation of every error, and there is no return from one to model (R236). -/

namespace Sys2Proof.Machine

/-! ## The queue storage space -/

/-- The word in slot `i`: the one written last, or the free word it held before. -/
def Memory.read : Memory → Nat → EntryWord
  | [], i => Config.slotWord i
  | (k, w) :: rest, i => if k = i then w else Memory.read rest i

/-- The storage with `w` in slot `i`; the listing stays strictly rising. -/
def Memory.write : Memory → Nat → EntryWord → Memory
  | [], i, w => [(i, w)]
  | (k, x) :: rest, i, w =>
    if i < k then (i, w) :: (k, x) :: rest
    else if i = k then (i, w) :: rest
    else (k, x) :: Memory.write rest i w

/-- The canonical form: indices strictly rising. A written slot stays listed, since the word it held
before is a free value that no word can be compared with by evaluation (log entry 2). -/
abbrev Memory.wf (m : Memory) : Prop := m.Pairwise fun a b => a.1 < b.1

/-- `MemRead(i, 2)` (00_scope.md rule R15): a fault where no such slot exists. -/
def State.memRead (s : State) (i : Nat) : Except Fault EntryWord :=
  if i < s.params.qcap then .ok (s.slots.read i) else .error .noSuchSlot

/-- `QS[i] <- w`. -/
def State.setSlot (s : State) (i : Nat) (w : EntryWord) : State :=
  { s with slots := s.slots.write i w }

/-- `MemWrite(i, 2, w)` (00_scope.md rule R15): a fault where no such slot exists. -/
def State.memWrite (s : State) (i : Nat) (w : EntryWord) : Except Fault State :=
  if i < s.params.qcap then .ok (s.setSlot i w) else .error .noSuchSlot

/-! ## The ring (10_state.md rule R37, 41_queue.md) -/

/-- The slot of the `k`-th pending entry, `(head + k) mod QCAP` (R37); at `k = count` the tail. -/
def State.ringSlot (s : State) (k : Nat) : Nat := (s.head + k) % s.params.qcap

/-- The list view of the queue, head first (R37); `none` stands for a slot whose word encodes no
entry. -/
def State.queue (s : State) : List (Option Entry) :=
  (List.range s.count).map fun k => decodeEntry (s.slots.read (s.ringSlot k))

/-- `is_empty()` (41_queue.md rule R113). -/
def State.isEmpty (s : State) : Bool := decide (s.count = 0)

/-- `enqueue(e)`: the tail slot is written, then the count (41_queue.md rule R111). -/
def State.enqueue (s : State) (e : Entry) : Except Raise State :=
  if s.count = s.params.qcap then .error (.code .queueFull)
  else
    match s.memWrite (s.ringSlot s.count) (entryWord e) with
    | .ok t => .ok { t with count := t.count + 1 }
    | .error f => .error (.stop f)

/-- The enqueues of `enqueue_all`, in list order (41_queue.md rule R115). -/
def State.enqueueEach : List Entry → State → Except Raise State
  | [], s => .ok s
  | e :: es, s =>
    match s.enqueue e with
    | .ok t => State.enqueueEach es t
    | .error r => .error r

/-- `enqueue_all(es)`, all or nothing: `QCAP - count < |es|` raises `QueueFull` (41_queue.md rule
R115). -/
def State.enqueueAll (s : State) (es : List Entry) : Except Raise State :=
  if s.params.qcap < s.count + es.length then .error (.code .queueFull) else State.enqueueEach es s

/-- The two writes of a dequeue: head and count (41_queue.md rule R112). -/
def State.dropHead (s : State) : State :=
  { s with head := (s.head + 1) % s.params.qcap, count := s.count - 1 }

/-- `dequeue()` (41_queue.md rule R112): nothing for an empty queue, else the head's word and the
state without it. -/
def State.dequeue (s : State) : Except Fault (Option (EntryWord × State)) :=
  if s.isEmpty then .ok none
  else
    match s.memRead s.head with
    | .ok w => .ok (some (w, s.dropHead))
    | .error f => .error f

/-- `reset()` (41_queue.md rule R114): the ring is emptied, the slots are not written (20_memory.md
rule R60, log entry 8). -/
def State.resetQueue (s : State) : State := { s with head := 0, count := 0 }

/-! ## The bus port (10_state.md rules R39, R47, R48) -/

/-- The level of a control line. -/
def Level.ofBool (b : Bool) : Level := if b then .high else .low

/-- The latches after an event (the table of R47). -/
def BusEvent.latch (ev : BusEvent) (b : Bus) : Bus :=
  match ev with
  | .setRS h => { b with rs := Level.ofBool h }
  | .setRW r => { b with rw := Level.ofBool r }
  | .dirOut => { b with dir := .output }
  | .dirIn => { b with dir := .input }
  | .writeNibble v => { b with d := .nibble v }
  | .readNibble _ => b
  | .pulseEnable => { b with e := .low }
  | .delay _ => b

/-- `emit E`: the event goes to the end of the trace and is performed on the port (00_scope.md rule
R16). -/
def State.emit (s : State) (ev : BusEvent) : State :=
  { s with trace := s.trace ++ [ev], bus := ev.latch s.bus }

/-- Events emitted in order. -/
def State.emitAll : List BusEvent → State → State
  | [], s => s
  | ev :: evs, s => State.emitAll evs (s.emit ev)

/-- The device's `k`-th answer from now: the `k`-th of those listed, a free value past the list's end
(10_state.md rule R45, log entry 6). -/
def State.answer (s : State) (k : Nat) : Nibble := s.device[k]?.getD (Config.deviceNibble (s.draws + k))

/-- One answer has been drawn. -/
def State.drawn (s : State) : State := { s with device := s.device.drop 1, draws := s.draws + 1 }

/-- `ReadNibble()`: the next answer, drawn and recorded (10_state.md rules R45, R47). -/
def State.readNibble (s : State) : Nibble × State :=
  let v := s.answer 0
  (v, s.drawn.emit (.readNibble v))

/-- `ReadStatus()` (43_scheduler.md rule R171). -/
def State.readStatus (s : State) : Byte × State :=
  let s := State.emitAll [.dirIn, .setRS false, .setRW true, .pulseEnable] s
  let hi := s.readNibble
  let lo := (hi.2.emit .pulseEnable).readNibble
  (joinNibbles hi.1 lo.1, lo.2)

/-- The seven events of a status transfer in which the device answers `status`, `ST(hi, lo)`
(30_encoding.md rules R90, R98). -/
def statusEvents (status : Byte) : List BusEvent :=
  [.dirIn, .setRS false, .setRW true, .pulseEnable, .readNibble (highNibble status), .pulseEnable,
    .readNibble (lowNibble status)]

/-- The five events of a nibble write, `W(rs, v)` (43_scheduler.md rule R172, 30_encoding.md rule
R98). -/
def nibbleEvents (rs : Bool) (v : Nibble) : List BusEvent :=
  [.setRS rs, .setRW false, .dirOut, .writeNibble v, .pulseEnable]

/-- `SendNibble(rs, v)` (43_scheduler.md rule R172). -/
def State.sendNibble (s : State) (rs : Bool) (v : Nibble) : State :=
  State.emitAll (nibbleEvents rs v) s

/-- `SendByte(rs, b)`, high nibble first (43_scheduler.md rule R172). -/
def State.sendByte (s : State) (rs : Bool) (b : Byte) : State :=
  (s.sendNibble rs (highNibble b)).sendNibble rs (lowNibble b)

/-- The RS level and the byte an entry is sent with (30_encoding.md rule R89). -/
def State.sendEntry (s : State) : Entry → State
  | .command b => s.sendByte false b
  | .data b => s.sendByte true b

/-- `PollReady()` with the given number of status reads left (44_init.md rule R207): whether the
device reported ready, and the state after. -/
def State.pollReady : Nat → State → Bool × State
  | 0, s => (false, s)
  | k + 1, s =>
    let r := s.readStatus
    if busy r.1 then State.pollReady k r.2 else (true, r.2)

/-! ## The result of a host operation (60_exceptions.md rules R230, R235) -/

/-- The operation ends with a code: `return` is `OK`, `raise X` is `X` (00_scope.md rule R17). -/
def State.returns (s : State) (c : HostCall) (code : ResultCode) : State :=
  { s with results := s.results ++ [⟨c, code⟩] }

/-- A change of the life-cycle state (10_state.md rule R34). -/
def State.setPhase (s : State) (p : Phase) : State := { s with phase := p }

/-- An encoder operation (42_encoder.md rule R130): the prologue, the operation's own check, then
`enqueue_all`; the first that raises gives the code and nothing else happens (60_exceptions.md rules
R234, R235). -/
def State.encoderOp (s : State) (i : Instr) (check : Option ResultCode) (es : List Entry) :
    Host.Outcome State Fault Refusal :=
  match gate s.phase with
  | some code => .next (s.returns (.operation i) code)
  | none =>
    match check with
    | some code => .next (s.returns (.operation i) code)
    | none =>
      match s.enqueueAll es with
      | .ok t => .next (t.returns (.operation i) .ok)
      | .error (.code code) => .next (s.returns (.operation i) code)
      | .error (.stop f) => .fault f

/-! ## Taking the next presented word -/

/-- The next presented word and the state without it; nothing while the host presents nothing
(70_reset_and_hazards.md rule R271). -/
def State.fetch (s : State) : Option (Presented × State) :=
  match s.presented with
  | [] => none
  | p :: rest => some (p, { s with presented := rest })

/-- What a presented word that encodes nothing does: a host word returns `IllegalOperation` and has no
other effect (60_exceptions.md rule R246); a word of another format has no meaning on its own. -/
def rejectWord (p : Presented) (s : State) : Host.Outcome State Fault Refusal :=
  match p with
  | .host32 w _ => .next (s.returns (.illegalWord w) .illegalOperation)
  | .entry16 _ => .refused .noEntry
  | .bus10 _ => .refused .noTransfer
  | .nib6 _ => .refused .noTransfer

end Sys2Proof.Machine
end

