-- ==== Sys2Proof/Machine/BusTransfers.lean ====
section
/-! DEFINITION. The transfers the ENGINE makes on the bus, each run on its own: the byte writes, the
status transfer and the bring-up nibbles (30_encoding.md rules R89 to R94). -/

namespace Sys2Proof.Machine

/-- Clear display, 0x01 (R91). -/
def execClearDisplay (s : State) : Host.Outcome State Fault Refusal :=
  .next (s.sendByte false clearByte)

/-- Return home, 0x02 (R91). -/
def execReturnHome (s : State) : Host.Outcome State Fault Refusal :=
  .next (s.sendByte false homeByte)

/-- Display on/off control, `0x08 | 0x04 | blinkBit | cursorBit` (R91, R92). -/
def execDisplayControl (cursor blink : Bool) (s : State) : Host.Outcome State Fault Refusal :=
  .next (s.sendByte false (styleByte cursor blink))

/-- Cursor/display shift, 0x18 left or 0x1C right (R91, R92). -/
def execDisplayShift (right : Bool) (s : State) : Host.Outcome State Fault Refusal :=
  .next (s.sendByte false (shiftByte right))

/-- Function set, 0x28 (R91, R92). -/
def execFunctionSet (s : State) : Host.Outcome State Fault Refusal :=
  .next (s.sendByte false functionSetByte)

/-- Set DDRAM address, `0x80 | a` (R91, R92). -/
def execSetDdramAddress (address : BitVec 7) (s : State) : Host.Outcome State Fault Refusal :=
  .next (s.sendByte false (0x80 ||| address.setWidth 8))

/-- Write data, RS high (R89, R94). -/
def execWriteData (c : Byte) (s : State) : Host.Outcome State Fault Refusal :=
  .next (s.sendByte true c)

/-- The status transfer in which the device answers the byte `busy, unused` (R90; log entry 10). -/
def execReadStatus (busy : Bool) (unused : BitVec 7) (s : State) :
    Host.Outcome State Fault Refusal :=
  .next (State.emitAll (statusEvents (BitVec.ofBool busy ++ unused)) s)

/-- The bring-up nibble 0011 (R93). -/
def execBringUp0011 (s : State) : Host.Outcome State Fault Refusal :=
  .next (s.sendNibble false 0b0011)

/-- The bring-up nibble 0010 (R93). -/
def execBringUp0010 (s : State) : Host.Outcome State Fault Refusal :=
  .next (s.sendNibble false 0b0010)

end Sys2Proof.Machine
end

