-- ==== Sys2Proof/Machine/Encoder.lean ====
section
/-! DEFINITION. The Protocol Encoder operations (42_encoder.md). -/

namespace Sys2Proof.Machine

/-- `Clear()` (42_encoder.md rule R131). -/
def execClear (s : State) : Host.Outcome State Fault Refusal :=
  s.encoderOp .clear none [.command clearByte]

/-- `Home()` (42_encoder.md rule R132). -/
def execHome (s : State) : Host.Outcome State Fault Refusal :=
  s.encoderOp .home none [.command homeByte]

/-- `SetPosition(column, row)` (42_encoder.md rule R133). -/
def execSetPosition (column row : Byte) (s : State) : Host.Outcome State Fault Refusal :=
  s.encoderOp (.setPosition column row) (checkRow row)
    [.command (setAddressByte column row)]

/-- `PutChar(c)` (42_encoder.md rule R134). -/
def execPutChar (c : Byte) (s : State) : Host.Outcome State Fault Refusal :=
  s.encoderOp (.putChar c) none [.data c]

/-- `PutString(s)` (42_encoder.md rule R135). -/
def execPutString (str : List Byte) (s : State) : Host.Outcome State Fault Refusal :=
  s.encoderOp (.putString str) (checkTerminated str) ((effectiveString str).map .data)

/-- `ShiftDisplay(count, direction)` (42_encoder.md rule R136). -/
def execShiftDisplay (count direction : Byte) (s : State) : Host.Outcome State Fault Refusal :=
  s.encoderOp (.shiftDisplay count direction) (checkDirection direction)
    (List.replicate count.toNat (.command (shiftByte (direction == dirRight))))

/-- `SetCursorStyle(cursorOn, blinkOn)` (42_encoder.md rule R137). -/
def execSetCursorStyle (cursorOn blinkOn : Byte) (s : State) : Host.Outcome State Fault Refusal :=
  s.encoderOp (.setCursorStyle cursorOn blinkOn) (checkStyle cursorOn blinkOn)
    [.command (styleByte (cursorOn == 1) (blinkOn == 1))]

end Sys2Proof.Machine
end

