-- ==== Sys2Proof/Machine/InitSequence.lean ====
section
/-! DEFINITION. The Initialization Sequence (44_init.md). -/

namespace Sys2Proof.Machine

/-- Steps 1 and 2: the settling delay, then the four bring-up nibbles with their delays (44_init.md
rules R201, R202). -/
def State.bringUp (s : State) : State :=
  let s := s.emit (.delay s.params.tPwr)
  let s := (s.sendNibble false 0b0011).emit (.delay s.params.t1)
  let s := (s.sendNibble false 0b0011).emit (.delay s.params.t2)
  let s := (s.sendNibble false 0b0011).emit (.delay s.params.t3)
  s.sendNibble false 0b0010

/-- Step 4: each byte is sent directly and followed by a poll, which may end the sequence; whether
every poll found the device ready, and the state after (44_init.md rules R205, R207). -/
def State.setUp : List Byte → State → Bool × State
  | [], s => (true, s)
  | b :: bs, s =>
    let r := State.pollReady s.params.initPollLimit (s.sendByte false b)
    if r.1 then State.setUp bs r.2 else (false, r.2)

/-- `Init()` (44_init.md rule R200); a poll that never found the device ready ends it with
`HardwareFault` and leaves `phase` (R208). -/
def State.runInit (s : State) : State :=
  match initGate s.phase with
  | some code => s.returns (.operation .init) code
  | none =>
    let r := State.setUp setupBytes s.bringUp.resetQueue
    if r.1 then (r.2.setPhase .ready).returns (.operation .init) .ok
    else r.2.returns (.operation .init) .hardwareFault

/-- `Init()` (44_init.md rule R200). -/
def execInit (s : State) : Host.Outcome State Fault Refusal := .next s.runInit

end Sys2Proof.Machine
end

