-- ==== Sys2Proof/Machine/Scheduler.lean ====
section
/-! DEFINITION. The Transmission Scheduler: `Update` and the two entries it executes
(43_scheduler.md). -/

namespace Sys2Proof.Machine

/-- The end of `Update` once a word has been dequeued: its entry is sent, or an illegal tag takes the
ENGINE to `FAULTED` (43_scheduler.md rules R170, R176). -/
def State.transmit (s : State) (w : EntryWord) : State :=
  match decodeEntry w with
  | some e => (s.sendEntry e).returns (.operation .update) .ok
  | none => (s.setPhase .faulted).returns (.operation .update) .protocolFault

/-- `Update()` (43_scheduler.md rule R170): the empty test is made before the status read
(90_conflicts.md C1). -/
def execUpdate (s : State) : Host.Outcome State Fault Refusal :=
  match gate s.phase with
  | some code => .next (s.returns (.operation .update) code)
  | none =>
    if s.isEmpty then .next (s.returns (.operation .update) .ok)
    else
      let r := s.readStatus
      if busy r.1 then .next (r.2.returns (.operation .update) .ok)
      else
        match r.2.dequeue with
        | .error f => .fault f
        | .ok none => .next (r.2.returns (.operation .update) .ok)
        | .ok (some (w, t)) => .next (t.transmit w)

/-- The entry `Command(b)`: send `b` with RS low (43_scheduler.md rules R170, R172). -/
def execCommand (b : Byte) (s : State) : Host.Outcome State Fault Refusal :=
  .next (s.sendEntry (.command b))

/-- The entry `Data(b)`: send `b` with RS high (43_scheduler.md rules R170, R172). -/
def execData (b : Byte) (s : State) : Host.Outcome State Fault Refusal :=
  .next (s.sendEntry (.data b))

end Sys2Proof.Machine
end

