-- ==== Sys2Proof/Machine/Dispatch.lean ====
section
/-! DEFINITION. One arm per instruction of the opcode table. -/

namespace Sys2Proof.Machine

def exec (i : Instr) (s : State) : Host.Outcome State Fault Refusal :=
  match i with
  -- HOST32
  | .init => Sys2Proof.Machine.execInit s
  | .update => Sys2Proof.Machine.execUpdate s
  | .clear => Sys2Proof.Machine.execClear s
  | .home => Sys2Proof.Machine.execHome s
  | .setPosition column row => Sys2Proof.Machine.execSetPosition column row s
  | .putChar c => Sys2Proof.Machine.execPutChar c s
  | .putString str => Sys2Proof.Machine.execPutString str s
  | .shiftDisplay count direction => Sys2Proof.Machine.execShiftDisplay count direction s
  | .setCursorStyle cursorOn blinkOn => Sys2Proof.Machine.execSetCursorStyle cursorOn blinkOn s
  -- ENTRY16
  | .command payload => Sys2Proof.Machine.execCommand payload s
  | .data payload => Sys2Proof.Machine.execData payload s
  -- BUS10
  | .clearDisplay => Sys2Proof.Machine.execClearDisplay s
  | .returnHome => Sys2Proof.Machine.execReturnHome s
  | .displayControl cursor blink => Sys2Proof.Machine.execDisplayControl cursor blink s
  | .displayShift right => Sys2Proof.Machine.execDisplayShift right s
  | .functionSet => Sys2Proof.Machine.execFunctionSet s
  | .setDdramAddress address => Sys2Proof.Machine.execSetDdramAddress address s
  | .writeData c => Sys2Proof.Machine.execWriteData c s
  | .readStatus busy unused => Sys2Proof.Machine.execReadStatus busy unused s
  -- NIB6
  | .bringUp0011 => Sys2Proof.Machine.execBringUp0011 s
  | .bringUp0010 => Sys2Proof.Machine.execBringUp0010 s

end Sys2Proof.Machine
end

