-- ==== Sys2Proof/Machine/Step.lean ====
section
/-! DEFINITION. One step of the machine: the next presented word is taken and run as one atomic
operation (00_scope.md rule R18). -/

namespace Sys2Proof.Machine

/-- One step. With nothing presented the ENGINE waits, its state unchanged (70_reset_and_hazards.md
rule R271). -/
def step (s : State) : Host.Outcome State Fault Refusal :=
  match s.fetch with
  | none => .next s
  | some (p, t) =>
    match decode p with
    | .ok i => exec i t
    | .error _ => rejectWord p t

/-- `s` with the word of an opcode-table row presented next (log entry 11); a word wider than its
format is no word and presents nothing. -/
def State.withFetchWord (s : State) (nbits w : Nat) : State :=
  match tableWord nbits w with
  | some p => { s with presented := p :: s.presented }
  | none => s

end Sys2Proof.Machine
end

