-- ==== Sys2Proof/WellFormed.lean ====
section
/-! DEFINITION. Which operands are within the values the source's own signatures give them, and which
presentations hold an operand where the format has one. -/

namespace Sys2Proof

/-- The operands lie in the domain the operation's rule accepts: a row of the display (42_encoder.md
rule R133), a direction (R136), two flags (R137), a terminated byte sequence (R135). Every other
field takes every value of its width. An instruction outside this domain still decodes and runs: the
operation validates its operands and returns the code of 60_exceptions.md rule R234, class 4. -/
def wellFormed : Instr → Bool
  | .setPosition _ row => decide (row.toNat < 2)
  | .shiftDisplay _ direction => decide (direction.toNat < 2)
  | .setCursorStyle cursorOn blinkOn => decide (cursorOn.toNat < 2) && decide (blinkOn.toNat < 2)
  | .putString s => s.any fun b => decide (b.toNat = 0)
  | .init | .update | .clear | .home | .putChar _ | .command _ | .data _ => true
  | .clearDisplay | .returnHome | .displayControl _ _ | .displayShift _ | .functionSet => true
  | .setDdramAddress _ | .writeData _ | .readStatus _ _ | .bringUp0011 | .bringUp0010 => true

/-- Only `PutString` (OP 0x06) comes with a byte-sequence operand (00_scope.md rule R18,
30_encoding.md rule R86). -/
def wellFormedPresented : Presented → Bool
  | .host32 w str => decide (w.toNat / 2 ^ 24 = 6) || str.isEmpty
  | .entry16 _ | .bus10 _ | .nib6 _ => true

end Sys2Proof
end

