-- ==== Sys2Proof/Safety.lean ====
section
/-! DEFINITION. The terms in which claims about the machine are made: which states are sound, which
results a good run holds, what two runs must share to look alike, and the spec's shorthand for event
groups and answers. -/

namespace Sys2Proof

/-- The RS level of an entry: low for a command, high for data (30_encoding.md rule R89). -/
def Entry.rs : Entry → Bool
  | .command _ => false
  | .data _ => true

/-- The payload of an entry. -/
def Entry.payload : Entry → Byte
  | .command b => b
  | .data b => b

end Sys2Proof

namespace Sys2Proof.Machine

/-! ## Sound states -/

/-- What every state of a run satisfies. The parameters meet their constraints (00_scope.md rule R11);
`QS` is in its canonical form and within its slots (20_memory.md rule R60); `head` and `count` lie in
their ranges (10_state.md rule R33); every slot of the live window holds a legal word (30_encoding.md
rule R88); so `FAULTED` has not been reached (60_exceptions.md rule R237). -/
structure State.Inv (s : State) : Prop where
  params_ok : s.params.Ok
  slots_wf : s.slots.wf
  slots_inRange : ∀ c ∈ s.slots, c.1 < s.params.qcap
  head_lt : s.head < s.params.qcap
  count_le : s.count ≤ s.params.qcap
  live_legal : ∀ k < s.count, (decodeEntry (s.slots.read (s.ringSlot k))).isSome
  not_faulted : s.phase ≠ .faulted

/-! ## Good runs (60_exceptions.md rule R247) -/

/-- A code that rule R247 counts as a fault: the fatal fault and the usage faults. -/
def ResultCode.isFault (c : ResultCode) : Bool := c.isFatal || c.isUsageFault

/-- Good in the sense of R247: not in `FAULTED`, and no operation so far met a fatal or a usage fault.
A claim that the source gives no meaning to takes this as a premise. -/
def State.good (s : State) : Bool :=
  decide (s.phase ≠ .faulted) && s.results.all fun r => !r.code.isFault

/-! ## Kinds of instruction -/

/-- The encoder operations (42_encoder.md). -/
def isEncoder : Instr → Bool
  | .clear | .home | .setPosition _ _ | .putChar _ | .putString _ => true
  | .shiftDisplay _ _ | .setCursorStyle _ _ => true
  | .init | .update | .command _ | .data _ | .clearDisplay | .returnHome => false
  | .displayControl _ _ | .displayShift _ | .functionSet | .setDdramAddress _ => false
  | .writeData _ | .readStatus _ _ | .bringUp0011 | .bringUp0010 => false

/-- The host operations (00_scope.md rule R4). -/
def isHostOp (i : Instr) : Bool :=
  match i with
  | .init | .update => true
  | .clear | .home | .setPosition _ _ | .putChar _ | .putString _ => true
  | .shiftDisplay _ _ | .setCursorStyle _ _ => true
  | .command _ | .data _ | .clearDisplay | .returnHome => false
  | .displayControl _ _ | .displayShift _ | .functionSet | .setDdramAddress _ => false
  | .writeData _ | .readStatus _ _ | .bringUp0011 | .bringUp0010 => false

/-- The entries an operation appends on success (30_encoding.md rule R86, 42_encoder.md). -/
def appends : Instr → List Entry
  | .clear => [.command 0x01]
  | .home => [.command 0x02]
  | .setPosition column row =>
    [.command (0x80#8 ||| BitVec.ofNat 8 (((if row = 0 then 0x00 else 0x40) + column.toNat) % 128))]
  | .putChar c => [.data c]
  | .putString s => (s.takeWhile (· != 0x00)).map .data
  | .shiftDisplay count direction =>
    List.replicate count.toNat (.command (if direction = 1 then 0x1C else 0x18))
  | .setCursorStyle cursorOn blinkOn =>
    [.command (BitVec.ofNat 8 (0x0C + 2 * cursorOn.toNat + blinkOn.toNat))]
  | .init | .update | .command _ | .data _ | .clearDisplay | .returnHome => []
  | .displayControl _ _ | .displayShift _ | .functionSet | .setDdramAddress _ => []
  | .writeData _ | .readStatus _ _ | .bringUp0011 | .bringUp0010 => []

/-- The code of an operation whose operands its validation refuses (60_exceptions.md rule R232). -/
def validationCode : Instr → ResultCode
  | .setPosition _ _ => .invalidRow
  | .shiftDisplay _ _ => .invalidDirection
  | .setCursorStyle _ _ => .invalidParameter
  | .putString _ => .unterminated
  | .init | .update | .clear | .home | .putChar _ | .command _ | .data _ => .ok
  | .clearDisplay | .returnHome | .displayControl _ _ | .displayShift _ | .functionSet => .ok
  | .setDdramAddress _ | .writeData _ | .readStatus _ _ | .bringUp0011 | .bringUp0010 => .ok

/-- The codes an operation can return (60_exceptions.md rule R233). -/
def possibleCodes : Instr → List ResultCode
  | .init => [.ok, .protocolFault, .alreadyInitialized, .hardwareFault]
  | .update => [.ok, .protocolFault, .notInitialized]
  | .clear | .home | .putChar _ => [.ok, .protocolFault, .notInitialized, .queueFull]
  | .setPosition _ _ => [.ok, .protocolFault, .notInitialized, .queueFull, .invalidRow]
  | .shiftDisplay _ _ => [.ok, .protocolFault, .notInitialized, .queueFull, .invalidDirection]
  | .setCursorStyle _ _ => [.ok, .protocolFault, .notInitialized, .queueFull, .invalidParameter]
  | .putString _ => [.ok, .protocolFault, .notInitialized, .queueFull, .unterminated]
  | .command _ | .data _ | .clearDisplay | .returnHome | .displayControl _ _ => []
  | .displayShift _ | .functionSet | .setDdramAddress _ | .writeData _ => []
  | .readStatus _ _ | .bringUp0011 | .bringUp0010 => []

/-! ## Event groups and answers -/

/-- `TX(rs, b)`: the ten events of a byte write, high nibble first (30_encoding.md rule R98). -/
def byteEvents (rs : Bool) (b : Byte) : List BusEvent :=
  nibbleEvents rs (highNibble b) ++ nibbleEvents rs (lowNibble b)

/-- The `n`-th status byte the device will answer from now, high nibble first (10_state.md rules R44,
R45). -/
def State.statusAnswer (s : State) (n : Nat) : Byte :=
  joinNibbles (s.answer (2 * n)) (s.answer (2 * n + 1))

/-- The events of the next `n` status reads. -/
def State.statusReads (s : State) (n : Nat) : List BusEvent :=
  (List.range n).flatMap fun k => statusEvents (s.statusAnswer k)

/-- The state once the next `n` status bytes have been read (43_scheduler.md rule R171). -/
def State.afterReads (s : State) (n : Nat) : State :=
  { s with
    trace := s.trace ++ s.statusReads n
    bus := if n = 0 then s.bus else ⟨.low, .high, .input, s.bus.d, .low⟩
    device := s.device.drop (2 * n)
    draws := s.draws + 2 * n }

/-- The events of the bring-up of `Init`, steps 1 and 2 (44_init.md rules R201, R202). -/
def bringUpEvents (p : Params) : List BusEvent :=
  [.delay p.tPwr] ++ nibbleEvents false 0b0011 ++ [.delay p.t1] ++ nibbleEvents false 0b0011 ++
    [.delay p.t2] ++ nibbleEvents false 0b0011 ++ [.delay p.t3] ++ nibbleEvents false 0b0010

/-- The latches after a list of events (10_state.md rule R47). -/
def latchesAfter : List BusEvent → Bus → Bus
  | [], b => b
  | ev :: evs, b => latchesAfter evs (ev.latch b)

/-- No nibble is written while the data lines are not outputs, and none read while they are not inputs
(10_state.md rule R39). -/
def drivesInTurn : List BusEvent → Bus → Bool
  | [], _ => true
  | ev :: evs, b =>
    (match ev with
      | .writeNibble _ => decide (b.dir = .output)
      | .readNibble _ => decide (b.dir = .input)
      | .setRS _ | .setRW _ | .dirOut | .dirIn | .pulseEnable | .delay _ => true) &&
    drivesInTurn evs (ev.latch b)

/-- The latches are what the whole trace has set, and the trace keeps to the direction rule
(10_state.md rule R39). -/
structure State.BusInv (s : State) : Prop where
  latches : s.bus = latchesAfter s.trace Bus.unset
  inTurn : drivesInTurn s.trace Bus.unset = true

/-! ## Contracts -/

/-- What an encoder operation does in every phase (42_encoder.md rule R130, 60_exceptions.md rule
R234). In `FAULTED` and in `UNINIT` it returns the phase's code and has no other effect; in `READY` it
returns `code` if its validation gives one, else `QueueFull` if the free slots are fewer than the
entries, else it appends the entries at the tail, returns `OK` and emits nothing. -/
def EncoderContract (i : Instr) (code : Option ResultCode) (es : List Entry) : Prop :=
  ∀ s : State, s.params.Ok → s.count ≤ s.params.qcap →
    (s.phase = .faulted → exec i s = .next (s.returns (.operation i) .protocolFault)) ∧
    (s.phase = .uninit → exec i s = .next (s.returns (.operation i) .notInitialized)) ∧
    (s.phase = .ready →
      match code with
      | some c => exec i s = .next (s.returns (.operation i) c)
      | none =>
        (s.params.qcap - s.count < es.length →
          exec i s = .next (s.returns (.operation i) .queueFull)) ∧
        (es.length ≤ s.params.qcap - s.count →
          ∃ t, exec i s = .next t ∧ t.queue = s.queue ++ es.map some ∧
            t.count = s.count + es.length ∧
            t.results = s.results ++ [⟨.operation i, .ok⟩] ∧
            t.phase = .ready ∧ t.trace = s.trace ∧ t.bus = s.bus))

/-- The code of the first cause that applies to an encoder operation (60_exceptions.md rule R234,
classes 2 to 5). -/
def firstCause (i : Instr) (s : State) : ResultCode :=
  if s.phase = .faulted then .protocolFault
  else if s.phase = .uninit then .notInitialized
  else if wellFormed i = false then validationCode i
  else if s.params.qcap - s.count < (appends i).length then .queueFull
  else .ok

/-! ## Runs -/

/-- Instructions run one after another, stopping at the first fault or refusal. -/
def runAll : List Instr → State → Host.Outcome State Fault Refusal
  | [], s => .next s
  | i :: is, s =>
    match exec i s with
    | .next t => runAll is t
    | .fault f => .fault f
    | .refused r => .refused r

/-- A call of a queue primitive that changes the queue (41_queue.md rule R116). -/
inductive QueueCall where
  | enqueueAll (es : List Entry)
  | dequeue
deriving DecidableEq, Repr

/-- What a run of queue primitives comes to: the entries `enqueue_all` accepted, those `dequeue`
returned, each in call order, and the last state. -/
structure QueueRun where
  accepted : List Entry
  taken : List (Option Entry)
  last : State

/-- Queue primitives called one after another; a call that raises or finds the queue empty leaves the
state. -/
def queueRun : List QueueCall → State → QueueRun
  | [], s => ⟨[], [], s⟩
  | .enqueueAll es :: calls, s =>
    match s.enqueueAll es with
    | .ok t =>
      let r := queueRun calls t
      { r with accepted := es ++ r.accepted }
    | .error _ => queueRun calls s
  | .dequeue :: calls, s =>
    match s.dequeue with
    | .ok (some (w, t)) =>
      let r := queueRun calls t
      { r with taken := decodeEntry w :: r.taken }
    | .ok none => queueRun calls s
    | .error _ => queueRun calls s

/-- Two states that agree in everything but where the ring lies in `QS`: the list view of the queue
stands for `slots`, `head` and `count` (10_state.md rule R37). -/
structure SameView (s t : State) : Prop where
  params : s.params = t.params
  phase : s.phase = t.phase
  queue : s.queue = t.queue
  bus : s.bus = t.bus
  trace : s.trace = t.trace
  results : s.results = t.results
  presented : s.presented = t.presented
  device : s.device = t.device
  draws : s.draws = t.draws

/-- Two outcomes that look alike: next states with the same view, or the same stop. -/
def sameOutcome : Host.Outcome State Fault Refusal → Host.Outcome State Fault Refusal → Prop
  | .next s, .next t => SameView s t
  | .fault f, .fault g => f = g
  | .refused r, .refused q => r = q
  | .next _, .fault _ => False
  | .next _, .refused _ => False
  | .fault _, .next _ => False
  | .fault _, .refused _ => False
  | .refused _, .next _ => False
  | .refused _, .fault _ => False

end Sys2Proof.Machine
end

