-- ==== Sys2Proof/Certificates/Slice0/Obligations.lean ====
section
/-! DEFINITION. The statements for the provers, from the numbered rules of spec/. -/

open Sys2Proof Sys2Proof.Machine

/-! ## Reset, input and decoding -/

/-- 10_state.md rule R50: at reset `phase = UNINIT`, the trace is empty, no latch has a level, and
the ENGINE waits for the first operation (nothing is presented yet, log entry 4). The queue is
unspecified there and unobservable: whatever `QS`, `head` and `count` are while `phase = UNINIT`,
every operation gives the same result, events, latches and phase, and `Init` leaves the queue empty.
(Their values in `State.reset`, log entries 1 and 2, are not claimed.) -/
def Obligations.ResetStateAsSpecified : Prop :=
  (State.reset.phase = .uninit ∧ State.reset.trace = [] ∧ State.reset.bus.rs = .undef ∧
    State.reset.bus.rw = .undef ∧ State.reset.bus.dir = .undef ∧ State.reset.bus.d = .undef ∧
    State.reset.bus.e = .undef) ∧
  step State.reset = .next State.reset ∧
  ∀ (i : Instr) (s : State) (m : Memory) (h c : Nat), isHostOp i = true → s.phase = .uninit →
    ∃ t u, exec i s = .next t ∧ exec i { s with slots := m, head := h, count := c } = .next u ∧
      u.results = t.results ∧ u.trace = t.trace ∧ u.bus = t.bus ∧ u.phase = t.phase ∧
      (i = .init → t.queue = [] ∧ u.queue = [])

/-- A presented word that decodes runs as one atomic step, which is `exec` of it on the state with the
word taken. For a host word this is 00_scope.md rule R18 and 30_encoding.md rule R83; that words come as
a list in the state, one taken per step, is the model's choice (log entry 4). For a storage word (log
entry 9), a byte transfer or a nibble (log entry 10) it is the model's choice that one can be presented
on its own at all. -/
def Obligations.StepRunsTheDecodedWord : Prop :=
  ∀ (s : State) (p : Presented) (rest : List Presented) (i : Instr),
    s.presented = p :: rest → decode p = .ok i →
    step s = exec i { s with presented := rest }

/-- 70_reset_and_hazards.md rule R271: with nothing presented the ENGINE waits, unchanged. That a step
with nothing presented answers the same state is the model's form of waiting (log entry 4). -/
def Obligations.StepWaitsForTheHost : Prop :=
  ∀ s : State, s.presented = [] → step s = .next s

/-- 60_exceptions.md rule R246: a host word that selects no operation returns `IllegalOperation` and
has no other effect, whatever the phase. (The list it is taken from and the record of its code are
the model's: log entries 4 and 5.) -/
def Obligations.IllegalHostWordReturnsItsCode : Prop :=
  ∀ (s : State) (w : HostWord) (str : List Byte) (rest : List Presented),
    s.presented = .host32 w str :: rest → decode (.host32 w str) = .error .illegalOperation →
    step s = .next { s with
      presented := rest
      results := s.results ++ [⟨.illegalWord w, .illegalOperation⟩] } ∧
    ResultCode.illegalOperation.value = 0x0A

/-- The model's choice (log entries 9 and 10): a word of another format that encodes nothing is
refused by name when presented on its own. -/
def Obligations.OtherWordsWithoutMeaningAreRefused : Prop :=
  (∀ (s : State) (w : EntryWord) (rest : List Presented),
    s.presented = .entry16 w :: rest → decodeEntry w = none → step s = .refused .noEntry) ∧
  (∀ (s : State) (w : BusWord) (rest : List Presented),
    s.presented = .bus10 w :: rest → decodeBus w = none → step s = .refused .noTransfer) ∧
  (∀ (s : State) (w : NibbleWord) (rest : List Presented),
    s.presented = .nib6 w :: rest → decodeNibble w = none → step s = .refused .noTransfer)

/-- 30_encoding.md rules R81 to R93: words written out from the tables decode to what they stand
for. -/
def Obligations.SampleWordsDecode : Prop :=
  decode (.host32 0x01000000 []) = .ok .update ∧
  decode (.host32 0x04000103 []) = .ok (.setPosition 3 1) ∧
  decode (.host32 0x05010031 []) = .error .illegalOperation ∧
  decode (.host32 0x06000000 [0x41, 0x00]) = .ok (.putString [0x41, 0x00]) ∧
  decode (.entry16 0x0141) = .ok (.data 0x41) ∧
  decode (.bus10 0b0000001110) = .ok (.displayControl true false) ∧
  decode (.bus10 0b0110000000) = .ok (.readStatus true 0) ∧
  decode (.nib6 0b000010) = .ok .bringUp0010

/-- 30_encoding.md rule R83: a host word is illegal exactly when `OP > 0x08`, or `RSV` is not zero,
or a field its row marks "0" is not zero; every other word decodes to one operation. -/
def Obligations.HostWordIllegalExactlyWhenReserved : Prop :=
  ∀ (w : HostWord) (str : List Byte),
    (decode (.host32 w str) = .error .illegalOperation ↔
      (0x08 < w.toNat / 2 ^ 24 ∨ w.toNat / 2 ^ 16 % 256 ≠ 0 ∨
        (w.toNat / 2 ^ 24 ∈ [0, 1, 2, 3, 6] ∧ w.toNat % 2 ^ 16 ≠ 0) ∨
        (w.toNat / 2 ^ 24 = 5 ∧ w.toNat / 2 ^ 8 % 256 ≠ 0))) ∧
    (decode (.host32 w str) ≠ .error .illegalOperation →
      ∃ i, decode (.host32 w str) = .ok i ∧ isHostOp i = true)

/-- 30_encoding.md rule R87: `0x00bb` is `Command(bb)`, `0x01bb` is `Data(bb)`, every other storage
word encodes no entry, and bit 8 of a legal word is the RS level its entry is sent with. -/
def Obligations.StorageWordsEncodeEntriesByTag : Prop :=
  (∀ e : Entry, (entryWord e).getLsbD 8 = e.rs) ∧
  ∀ w : EntryWord,
    (w.toNat / 256 = 0 → decodeEntry w = some (.command (BitVec.ofNat 8 (w.toNat % 256))) ∧
      entryWord (.command (BitVec.ofNat 8 (w.toNat % 256))) = w) ∧
    (w.toNat / 256 = 1 → decodeEntry w = some (.data (BitVec.ofNat 8 (w.toNat % 256))) ∧
      entryWord (.data (BitVec.ofNat 8 (w.toNat % 256))) = w) ∧
    (1 < w.toNat / 256 → decodeEntry w = none)

/-- Decoding the encoding of an instruction gives it back, every operand at every value. -/
def Obligations.DecodeOfEncode : Prop :=
  ∀ i : Instr, decode (encode i) = .ok i

/-- What decodes is the encoding of what it decodes to: no bit of a word is dropped. A host word
other than `PutString`'s comes with no operand. -/
def Obligations.EncodeOfDecode : Prop :=
  ∀ (p : Presented) (i : Instr),
    wellFormedPresented p = true → decode p = .ok i → encode i = p

/-! ## The queue primitives -/

/-- 41_queue.md rules R111, R112, R113, R115: `enqueue`, `dequeue`, `is_empty` and `enqueue_all`. -/
def Obligations.QueuePrimitives : Prop :=
  (∀ (s : State) (e : Entry),
    (s.count = s.params.qcap → s.enqueue e = .error (.code .queueFull)) ∧
    (s.count < s.params.qcap → ∃ t, s.enqueue e = .ok t ∧ t.queue = s.queue ++ [some e] ∧
      t.count = s.count + 1 ∧
      t.slots.read ((s.head + s.count) % s.params.qcap) = entryWord e ∧
      ∀ a, a ≠ (s.head + s.count) % s.params.qcap → t.slots.read a = s.slots.read a)) ∧
  (∀ s : State, s.isEmpty = true ↔ s.queue = []) ∧
  (∀ s : State, s.count = 0 → s.dequeue = .ok none) ∧
  (∀ (s : State) (w : EntryWord), 0 < s.count → s.head < s.params.qcap →
    s.slots.read s.head = w →
    ∃ t, s.dequeue = .ok (some (w, t)) ∧ s.queue = decodeEntry w :: t.queue ∧
      t.head = (s.head + 1) % s.params.qcap ∧ t.count + 1 = s.count ∧ t.slots = s.slots) ∧
  ∀ (s : State) (es : List Entry), s.count ≤ s.params.qcap →
    (s.params.qcap - s.count < es.length → s.enqueueAll es = .error (.code .queueFull)) ∧
    (es.length ≤ s.params.qcap - s.count →
      ∃ t, s.enqueueAll es = .ok t ∧ t.queue = s.queue ++ es.map some ∧
        t.count = s.count + es.length)

/-- 41_queue.md rule R116, which the spec marks as derived: over any interleaving of `enqueue_all`
and `dequeue` calls, the entries taken followed by those left are the entries there were followed by
those accepted; from an empty queue the entries taken are a prefix of the entries accepted. -/
def Obligations.FifoLaw : Prop :=
  ∀ (calls : List QueueCall) (s : State), s.Inv →
    s.queue ++ (queueRun calls s).accepted.map some =
      (queueRun calls s).taken ++ (queueRun calls s).last.queue ∧
    (s.queue = [] → (queueRun calls s).taken <+: (queueRun calls s).accepted.map some)

/-! ## The encoder operations -/

/-- 42_encoder.md rule R131. -/
def Obligations.ClearAppendsItsCommand : Prop :=
  (∀ str, decode (.host32 0x02000000 str) = .ok .clear) ∧
  EncoderContract .clear none [.command 0x01]

/-- 42_encoder.md rule R132. -/
def Obligations.HomeAppendsItsCommand : Prop :=
  (∀ str, decode (.host32 0x03000000 str) = .ok .home) ∧
  EncoderContract .home none [.command 0x02]

/-- 42_encoder.md rule R133. -/
def Obligations.SetPositionAppendsTheAddress : Prop :=
  (∀ (column row : Byte) (str : List Byte),
    decode (.host32 (0x04#8 ++ 0x00#8 ++ row ++ column) str) = .ok (.setPosition column row)) ∧
  (∀ column : Byte, EncoderContract (.setPosition column 0) none
    [.command (BitVec.ofNat 8 (0x80 + column.toNat % 128))]) ∧
  (∀ column : Byte, EncoderContract (.setPosition column 1) none
    [.command (BitVec.ofNat 8 (0x80 + (0x40 + column.toNat) % 128))]) ∧
  (∀ column row : Byte, 1 < row.toNat →
    EncoderContract (.setPosition column row) (some .invalidRow) [])

/-- 42_encoder.md rule R140: the masked sum is the sum modulo 128, in 8 bits or without bound, and
exact for columns up to 0x3F. -/
def Obligations.SetPositionAddressArithmetic : Prop :=
  ∀ column row : Byte, row.toNat < 2 →
    ddramAddress column row = (0x40 * row.toNat + column.toNat) % 128 ∧
    ddramAddress column row = ((0x40 * row.toNat + column.toNat) % 256) % 128 ∧
    (column.toNat ≤ 0x3F →
      ddramAddress column row = 0x40 * row.toNat + column.toNat ∧
      (setAddressByte column row).toNat = 0x80 + 0x40 * row.toNat + column.toNat)

/-- 42_encoder.md rule R134. -/
def Obligations.PutCharAppendsItsByte : Prop :=
  (∀ (c : Byte) (str : List Byte),
    decode (.host32 (0x05#8 ++ 0x00#8 ++ 0x00#8 ++ c) str) = .ok (.putChar c)) ∧
  ∀ c : Byte, EncoderContract (.putChar c) none [.data c]

/-- 42_encoder.md rule R135: the bytes before the first terminator, in order; what follows it is
ignored; without one, `Unterminated` (decisions D4, D14 of 92_eei_decisions.md). -/
def Obligations.PutStringAppendsTheString : Prop :=
  (∀ str, decode (.host32 0x06000000 str) = .ok (.putString str)) ∧
  (∀ pre post : List Byte, 0x00 ∉ pre →
    EncoderContract (.putString (pre ++ 0x00 :: post)) none (pre.map .data)) ∧
  (∀ str : List Byte, 0x00 ∉ str → EncoderContract (.putString str) (some .unterminated) [])

/-- 42_encoder.md rule R136; the direction codes are decision D11 of 92_eei_decisions.md, all or
nothing is D4. -/
def Obligations.ShiftDisplayRepeatsItsCommand : Prop :=
  (∀ (count direction : Byte) (str : List Byte),
    decode (.host32 (0x07#8 ++ 0x00#8 ++ direction ++ count) str) =
      .ok (.shiftDisplay count direction)) ∧
  (∀ count : Byte, EncoderContract (.shiftDisplay count 0) none
    (List.replicate count.toNat (.command 0x18))) ∧
  (∀ count : Byte, EncoderContract (.shiftDisplay count 1) none
    (List.replicate count.toNat (.command 0x1C))) ∧
  (∀ count direction : Byte, 1 < direction.toNat →
    EncoderContract (.shiftDisplay count direction) (some .invalidDirection) [])

/-- 42_encoder.md rule R137; the two bit positions are decision D12 of 92_eei_decisions.md. -/
def Obligations.SetCursorStyleAppendsTheControlByte : Prop :=
  (∀ (cursorOn blinkOn : Byte) (str : List Byte),
    decode (.host32 (0x08#8 ++ 0x00#8 ++ blinkOn ++ cursorOn) str) =
      .ok (.setCursorStyle cursorOn blinkOn)) ∧
  EncoderContract (.setCursorStyle 0 0) none [.command 0x0C] ∧
  EncoderContract (.setCursorStyle 0 1) none [.command 0x0D] ∧
  EncoderContract (.setCursorStyle 1 0) none [.command 0x0E] ∧
  EncoderContract (.setCursorStyle 1 1) none [.command 0x0F] ∧
  (∀ cursorOn blinkOn : Byte, 1 < cursorOn.toNat ∨ 1 < blinkOn.toNat →
    EncoderContract (.setCursorStyle cursorOn blinkOn) (some .invalidParameter) [])

/-- 60_exceptions.md rule R234, classes 2 to 5: an encoder operation returns the code of the first
cause that applies. -/
def Obligations.EncodersReportTheFirstCause : Prop :=
  ∀ (i : Instr) (s : State), isEncoder i = true → s.count ≤ s.params.qcap →
    ∃ t, exec i s = .next t ∧ t.results = s.results ++ [⟨.operation i, firstCause i s⟩]

/-- 42_encoder.md rule R138: no encoder operation touches the bus. -/
def Obligations.EncodersNeverTouchTheBus : Prop :=
  ∀ (i : Instr) (s : State), isEncoder i = true →
    ∃ t, exec i s = .next t ∧ t.trace = s.trace ∧ t.bus = s.bus

/-- 41_queue.md rule R117, which the spec marks as derived: a call that raises `QueueFull` leaves
the queue as it was, entry for entry. -/
def Obligations.OverflowLeavesTheQueue : Prop :=
  ∀ (i : Instr) (s t : State), isEncoder i = true → exec i s = .next t →
    t.results = s.results ++ [⟨.operation i, .queueFull⟩] →
    t.queue = s.queue ∧ t.slots = s.slots ∧ t.head = s.head ∧ t.count = s.count

/-- The frame of the seven encoder operations `Clear`, `Home`, `SetPosition`, `PutChar`,
`PutString`, `ShiftDisplay`, `SetCursorStyle`: besides the result, only `count` and the tail slots
the entries go to may change; every other slot reads as before. -/
def Obligations.EncoderFrame : Prop :=
  ∀ (i : Instr) (s t : State), isEncoder i = true → exec i s = .next t →
    t.params = s.params ∧ t.phase = s.phase ∧ t.head = s.head ∧ t.bus = s.bus ∧
    t.trace = s.trace ∧ t.presented = s.presented ∧ t.device = s.device ∧ t.draws = s.draws ∧
    (∃ code, t.results = s.results ++ [⟨.operation i, code⟩]) ∧
    (t.count = s.count ∨ t.count = s.count + (appends i).length) ∧
    ∀ a : Nat, (∀ k < (appends i).length, a ≠ s.ringSlot (s.count + k)) →
      t.slots.read a = s.slots.read a

/-- 42_encoder.md rule R139, which the spec marks as derived: code and appended entries depend on
the phase, the room and the operands alone. -/
def Obligations.EncodersDependOnPhaseRoomAndOperands : Prop :=
  ∀ (i : Instr) (s s' : State), isEncoder i = true → s.params.Ok → s'.params.Ok →
    s.count ≤ s.params.qcap → s'.count ≤ s'.params.qcap → s.phase = s'.phase →
    (s.params.qcap - s.count < (appends i).length ↔
      s'.params.qcap - s'.count < (appends i).length) →
    ∃ (t t' : State) (code : ResultCode) (es : List Entry),
      exec i s = .next t ∧ exec i s' = .next t' ∧
      t.results = s.results ++ [⟨.operation i, code⟩] ∧
      t'.results = s'.results ++ [⟨.operation i, code⟩] ∧
      t.queue = s.queue ++ es.map some ∧ t'.queue = s'.queue ++ es.map some

/-! ## The scheduler -/

/-- 43_scheduler.md rule R173, which the spec marks as derived from R170. -/
def Obligations.UpdateOnEmptyQueueDoesNothing : Prop :=
  ∀ s : State, s.phase = .ready → s.count = 0 →
    exec .update s = .next (s.returns (.operation .update) .ok)

/-- 43_scheduler.md rule R174, which the spec marks as derived from R170: the seven events of a
status read, no write, the queue untouched. -/
def Obligations.UpdateWhileBusyOnlyReadsStatus : Prop :=
  ∀ s : State, s.phase = .ready → 0 < s.count → busy (s.statusAnswer 0) = true →
    ∃ t, exec .update s = .next t ∧
      t.trace = s.trace ++ [.dirIn, .setRS false, .setRW true, .pulseEnable,
        .readNibble (s.answer 0), .pulseEnable, .readNibble (s.answer 1)] ∧
      t.queue = s.queue ∧ t.head = s.head ∧ t.count = s.count ∧ t.slots = s.slots ∧
      t.phase = .ready ∧ t.results = s.results ++ [⟨.operation .update, .ok⟩] ∧
      t.bus = ⟨.low, .high, .input, s.bus.d, .low⟩

/-- 43_scheduler.md rule R175, which the spec marks as derived from R170 to R172: exactly the head
entry is dequeued and sent, RS low for a command and high for data, high nibble first, after the
status read. -/
def Obligations.UpdateSendsTheHeadEntry : Prop :=
  ∀ (s : State) (e : Entry) (rest : List (Option Entry)),
    s.phase = .ready → s.head < s.params.qcap → s.queue = some e :: rest →
    busy (s.statusAnswer 0) = false →
    ∃ t, exec .update s = .next t ∧ t.queue = rest ∧
      t.head = (s.head + 1) % s.params.qcap ∧ t.count + 1 = s.count ∧ t.phase = .ready ∧
      t.trace = s.trace ++ ([.dirIn, .setRS false, .setRW true, .pulseEnable,
        .readNibble (s.answer 0), .pulseEnable, .readNibble (s.answer 1)] ++
        [.setRS e.rs, .setRW false, .dirOut, .writeNibble (e.payload.extractLsb' 4 4), .pulseEnable] ++
        [.setRS e.rs, .setRW false, .dirOut, .writeNibble (e.payload.extractLsb' 0 4),
          .pulseEnable]) ∧
      t.bus = ⟨Level.ofBool e.rs, .low, .output, .nibble (e.payload.extractLsb' 0 4), .low⟩ ∧
      t.results = s.results ++ [⟨.operation .update, .ok⟩]

/-- 43_scheduler.md rules R170, R176 (decision D19 of 92_eei_decisions.md): an illegal tag has been
read and removed, nothing is written, and the ENGINE is `FAULTED`. -/
def Obligations.UpdateFaultsOnIllegalTag : Prop :=
  ∀ (s : State) (w : EntryWord), s.phase = .ready → 0 < s.count → s.head < s.params.qcap →
    s.slots.read s.head = w → 1 < w.toNat / 256 → busy (s.statusAnswer 0) = false →
    ∃ t, exec .update s = .next t ∧ t.phase = .faulted ∧
      t.trace = s.trace ++ [.dirIn, .setRS false, .setRW true, .pulseEnable,
        .readNibble (s.answer 0), .pulseEnable, .readNibble (s.answer 1)] ∧
      t.queue = s.queue.tail ∧ t.count + 1 = s.count ∧
      t.results = s.results ++ [⟨.operation .update, .protocolFault⟩]

/-- 00_scope.md rule R15, 20_memory.md rule R60: each of the `QCAP` slots holds a word, which `MemRead`
reads and `MemWrite` replaces, no other slot changing. The model's stop (the docstring of `Fault`): an
index that names no slot, also as the head of `Update`. With the head in range `Update` goes on whatever
word the head slot holds, written or not (log entry 2). No run reaches the stop:
`SoundStatesNeverFault`. -/
def Obligations.UpdateStopsWhereNoSlotIsReadable : Prop :=
  (∀ (s : State) (i : Nat) (w : EntryWord),
    (i < s.params.qcap → s.memRead i = .ok (s.slots.read i) ∧
      ∃ t, s.memWrite i w = .ok t ∧ t.slots.read i = w ∧
        ∀ a, a ≠ i → t.slots.read a = s.slots.read a) ∧
    (s.params.qcap ≤ i → s.memRead i = .error .noSuchSlot ∧
      s.memWrite i w = .error .noSuchSlot)) ∧
  ∀ s : State, s.phase = .ready → 0 < s.count → busy (s.statusAnswer 0) = false →
    (s.params.qcap ≤ s.head → exec .update s = .fault .noSuchSlot) ∧
    (s.head < s.params.qcap → ∃ t, exec .update s = .next t ∧ t.count + 1 = s.count)

/-- 43_scheduler.md rule R178, 70_reset_and_hazards.md rule R283: at most one entry leaves the
queue, and the events number 0, 7 or 17. -/
def Obligations.UpdateDoesAtMostOneUnitOfWork : Prop :=
  ∀ s t : State, exec .update s = .next t →
    (t.count = s.count ∨ t.count + 1 = s.count) ∧
    ∃ evs, t.trace = s.trace ++ evs ∧ (evs.length = 0 ∨ evs.length = 7 ∨ evs.length = 17)

/-- 70_reset_and_hazards.md rule R275, first half: `Update` writes a nibble only after a status read
of the same call whose busy flag was clear. -/
def Obligations.UpdateWritesOnlyAfterReadyStatus : Prop :=
  ∀ (s t : State) (evs : List BusEvent), exec .update s = .next t → t.trace = s.trace ++ evs →
    (∃ v, BusEvent.writeNibble v ∈ evs) →
    busy (s.statusAnswer 0) = false ∧
    ∃ sent, evs = [.dirIn, .setRS false, .setRW true, .pulseEnable, .readNibble (s.answer 0),
        .pulseEnable, .readNibble (s.answer 1)] ++ sent ∧
      ∀ v, BusEvent.readNibble v ∉ sent

/-- The frame of `Update`: it writes no slot, presents nothing, and changes `phase` only to
`FAULTED`; `head` and `count` change only together, by one entry. -/
def Obligations.UpdateFrame : Prop :=
  ∀ s t : State, exec .update s = .next t →
    t.params = s.params ∧ t.presented = s.presented ∧ t.slots = s.slots ∧
    (∀ a, t.slots.read a = s.slots.read a) ∧
    (t.phase = s.phase ∨ t.phase = .faulted) ∧
    ((t.head = s.head ∧ t.count = s.count) ∨
      (t.head = (s.head + 1) % s.params.qcap ∧ t.count + 1 = s.count)) ∧
    (∃ code, t.results = s.results ++ [⟨.operation .update, code⟩])

/-- 00_scope.md rule R4, 43_scheduler.md rule R170: an `Update` that sends is the status transfer
with the byte the device answers, then the head entry run as a micro-instruction. -/
def Obligations.UpdateIsItsMicroInstructions : Prop :=
  ∀ (s : State) (e : Entry) (rest : List (Option Entry)),
    s.phase = .ready → s.head < s.params.qcap → s.queue = some e :: rest →
    busy (s.statusAnswer 0) = false →
    ∃ t u, exec (.readStatus false ((s.statusAnswer 0).extractLsb' 0 7)) s = .next t ∧
      exec e.toInstr { t.dropHead with device := s.device.drop 2, draws := s.draws + 2 } = .next u ∧
      exec .update s = .next (u.returns (.operation .update) .ok)

/-- 43_scheduler.md rule R178, 41_queue.md rule R116: with a device that reports ready at every
call, as many calls of `Update` as there are entries transmit them all, in order, and empty the
queue. -/
def Obligations.ReadyDeviceDrainsInOrder : Prop :=
  ∀ (es : List Entry) (s : State), s.phase = .ready → s.head < s.params.qcap →
    s.queue = es.map some → (∀ k < es.length, busy (s.statusAnswer k) = false) →
    ∃ t, runAll (List.replicate es.length .update) s = .next t ∧ t.queue = [] ∧
      t.trace = s.trace ++ (es.zipIdx.flatMap fun p =>
        statusEvents (s.statusAnswer p.2) ++ byteEvents p.1.rs p.1.payload)

/-! ## Initialization -/

/-- 44_init.md rules R200 to R207, R209, 10_state.md rule R51: with a device that is busy for `a`,
`b` and `c` polls after the three bytes, each below the limit, `Init` succeeds with exactly these
events and leaves the state of R51. -/
def Obligations.InitSucceedsWhenTheDeviceBecomesReady : Prop :=
  ∀ (s : State) (a b c : Nat), s.phase = .uninit →
    a < s.params.initPollLimit → b < s.params.initPollLimit → c < s.params.initPollLimit →
    (∀ n < a + b + c + 3,
      (busy (s.statusAnswer n) = false ↔ n = a ∨ n = a + b + 1 ∨ n = a + b + c + 2)) →
    ∃ t, exec .init s = .next t ∧ t.phase = .ready ∧ t.queue = [] ∧
      t.bus = ⟨.low, .high, .input, .nibble 0x1, .low⟩ ∧
      t.trace = s.trace ++ bringUpEvents s.params ++
        byteEvents false 0x28 ++
          ((List.range' 0 (a + 1)).flatMap fun n => statusEvents (s.statusAnswer n)) ++
        byteEvents false 0x0F ++
          ((List.range' (a + 1) (b + 1)).flatMap fun n => statusEvents (s.statusAnswer n)) ++
        byteEvents false 0x01 ++
          ((List.range' (a + b + 2) (c + 1)).flatMap fun n => statusEvents (s.statusAnswer n)) ∧
      t.trace.length = s.trace.length + 75 + 7 * (a + b + c) ∧
      t.results = s.results ++ [⟨.operation .init, .ok⟩]

/-- 44_init.md rules R207, R208: a device that is busy at every poll after the function set ends
`Init` with `HardwareFault` after `INIT_POLL_LIMIT` status reads; the events stay, the queue is
empty and `phase` stays `UNINIT`. -/
def Obligations.InitFailsOnADeviceThatStaysBusy : Prop :=
  ∀ s : State, s.phase = .uninit →
    (∀ n < s.params.initPollLimit, busy (s.statusAnswer n) = true) →
    ∃ t, exec .init s = .next t ∧ t.phase = .uninit ∧ t.queue = [] ∧
      t.trace = s.trace ++ bringUpEvents s.params ++ byteEvents false 0x28 ++
        ((List.range s.params.initPollLimit).flatMap fun n => statusEvents (s.statusAnswer n)) ∧
      t.trace.length = s.trace.length + 34 + 7 * s.params.initPollLimit ∧
      t.results = s.results ++ [⟨.operation .init, .hardwareFault⟩]

/-- 44_init.md rules R207, R208: the same where the device turns busy for good after the first poll
succeeded (at its `a`-th further status read), or after the second did too (at its `b`-th). -/
def Obligations.InitFailsAtALaterPoll : Prop :=
  (∀ (s : State) (a : Nat), s.phase = .uninit → a < s.params.initPollLimit →
    (∀ n < a + 1 + s.params.initPollLimit, (busy (s.statusAnswer n) = false ↔ n = a)) →
    ∃ t, exec .init s = .next t ∧ t.phase = .uninit ∧ t.queue = [] ∧
      t.trace = s.trace ++ bringUpEvents s.params ++
        byteEvents false 0x28 ++
          ((List.range' 0 (a + 1)).flatMap fun n => statusEvents (s.statusAnswer n)) ++
        byteEvents false 0x0F ++
          ((List.range' (a + 1) s.params.initPollLimit).flatMap fun n =>
            statusEvents (s.statusAnswer n)) ∧
      t.results = s.results ++ [⟨.operation .init, .hardwareFault⟩]) ∧
  (∀ (s : State) (a b : Nat), s.phase = .uninit → a < s.params.initPollLimit →
    b < s.params.initPollLimit →
    (∀ n < a + b + 2 + s.params.initPollLimit,
      (busy (s.statusAnswer n) = false ↔ n = a ∨ n = a + b + 1)) →
    ∃ t, exec .init s = .next t ∧ t.phase = .uninit ∧ t.queue = [] ∧
      t.trace = s.trace ++ bringUpEvents s.params ++
        byteEvents false 0x28 ++
          ((List.range' 0 (a + 1)).flatMap fun n => statusEvents (s.statusAnswer n)) ++
        byteEvents false 0x0F ++
          ((List.range' (a + 1) (b + 1)).flatMap fun n => statusEvents (s.statusAnswer n)) ++
        byteEvents false 0x01 ++
          ((List.range' (a + b + 2) s.params.initPollLimit).flatMap fun n =>
            statusEvents (s.statusAnswer n)) ∧
      t.results = s.results ++ [⟨.operation .init, .hardwareFault⟩])

/-- 44_init.md rules R206, R208, 70_reset_and_hazards.md rule R283: from `UNINIT`, `Init` ends in
one of its two outcomes with the queue emptied, and emits at most `24 + 3 x (10 + 7 x
INIT_POLL_LIMIT)` events, starting with the bring-up. -/
def Obligations.InitEndsInOneOfTwoOutcomes : Prop :=
  ∀ s : State, s.phase = .uninit →
    ∃ t evs, exec .init s = .next t ∧ t.trace = s.trace ++ bringUpEvents s.params ++ evs ∧
      (bringUpEvents s.params).length + evs.length ≤ 24 + 3 * (10 + 7 * s.params.initPollLimit) ∧
      t.queue = [] ∧
      ((t.phase = .ready ∧ t.results = s.results ++ [⟨.operation .init, .ok⟩]) ∨
        (t.phase = .uninit ∧ t.results = s.results ++ [⟨.operation .init, .hardwareFault⟩]))

/-- The frame of `Init`: the configuration, the words presented and every slot of `QS` are as
before. -/
def Obligations.InitFrame : Prop :=
  ∀ s t : State, exec .init s = .next t →
    t.params = s.params ∧ t.presented = s.presented ∧ t.slots = s.slots ∧
    (∀ a, t.slots.read a = s.slots.read a) ∧
    (s.phase ≠ .uninit → t.head = s.head ∧ t.count = s.count ∧ t.trace = s.trace ∧
      t.bus = s.bus ∧ t.phase = s.phase ∧ t.device = s.device ∧ t.draws = s.draws) ∧
    (∃ code, t.results = s.results ++ [⟨.operation .init, code⟩])

/-! ## Entries and bus transfers run on their own -/

/-- 43_scheduler.md rules R170, R172: `Command(b)` sends `b` with RS low, `Data(b)` with RS high,
two nibbles, high first, and leaves the latches of R172. -/
def Obligations.EntriesSendTheirByte : Prop :=
  (∀ (b : Byte) (s : State), ∃ t, exec (.command b) s = .next t ∧
    t.trace = s.trace ++
      ([.setRS false, .setRW false, .dirOut, .writeNibble (b.extractLsb' 4 4), .pulseEnable] ++
        [.setRS false, .setRW false, .dirOut, .writeNibble (b.extractLsb' 0 4), .pulseEnable]) ∧
    t.bus = ⟨.low, .low, .output, .nibble (b.extractLsb' 0 4), .low⟩) ∧
  (∀ (b : Byte) (s : State), ∃ t, exec (.data b) s = .next t ∧
    t.trace = s.trace ++
      ([.setRS true, .setRW false, .dirOut, .writeNibble (b.extractLsb' 4 4), .pulseEnable] ++
        [.setRS true, .setRW false, .dirOut, .writeNibble (b.extractLsb' 0 4), .pulseEnable]) ∧
    t.bus = ⟨.high, .low, .output, .nibble (b.extractLsb' 0 4), .low⟩)

/-- 30_encoding.md rules R91, R92: the byte each transfer sends. -/
def Obligations.TransfersSendTheBytesOfTheTable : Prop :=
  ∀ s : State,
    (∃ t, exec .clearDisplay s = .next t ∧ t.trace = s.trace ++ byteEvents false 0x01) ∧
    (∃ t, exec .returnHome s = .next t ∧ t.trace = s.trace ++ byteEvents false 0x02) ∧
    (∀ cursor blink : Bool, ∃ t, exec (.displayControl cursor blink) s = .next t ∧
      t.trace = s.trace ++
        byteEvents false (BitVec.ofNat 8 (0x0C + 2 * cursor.toNat + blink.toNat))) ∧
    (∀ right : Bool, ∃ t, exec (.displayShift right) s = .next t ∧
      t.trace = s.trace ++ byteEvents false (BitVec.ofNat 8 (0x18 + 4 * right.toNat))) ∧
    (∃ t, exec .functionSet s = .next t ∧ t.trace = s.trace ++ byteEvents false 0x28) ∧
    (∀ address : BitVec 7, ∃ t, exec (.setDdramAddress address) s = .next t ∧
      t.trace = s.trace ++ byteEvents false (BitVec.ofNat 8 (0x80 + address.toNat))) ∧
    (∀ c : Byte, ∃ t, exec (.writeData c) s = .next t ∧
      t.trace = s.trace ++ byteEvents true c)

/-- 30_encoding.md rule R89: whatever write transfer a `BUS10` word encodes, running it sends the
word's own RS level and data byte, as two nibbles with RW low, and leaves the latches so. That a
transfer can be run on its own, and then completes in every state, is the model's choice (log entry
10). -/
def Obligations.TransfersSendTheirOwnWord : Prop :=
  ∀ (rs : Bool) (b : Byte) (i : Instr) (s : State),
    decode (.bus10 (busWord rs false b)) = .ok i →
    ∃ t, exec i s = .next t ∧
      t.trace = s.trace ++ (nibbleEvents rs (b.extractLsb' 4 4) ++ nibbleEvents rs (b.extractLsb' 0 4)) ∧
      t.bus = ⟨Level.ofBool rs, .low, .output, .nibble (b.extractLsb' 0 4), .low⟩

/-- 30_encoding.md rule R90, 43_scheduler.md rule R171: the status transfer in which the device
drives `busy, unused` (log entry 10). -/
def Obligations.StatusTransferReadsTwoNibbles : Prop :=
  ∀ (flag : Bool) (unused : BitVec 7) (s : State),
    ∃ t, exec (.readStatus flag unused) s = .next t ∧
      (∃ hi lo : Nibble, (hi ++ lo : BitVec (4 + 4)) = BitVec.ofBool flag ++ unused ∧
        t.trace = s.trace ++ [.dirIn, .setRS false, .setRW true, .pulseEnable, .readNibble hi,
          .pulseEnable, .readNibble lo]) ∧
      t.bus = ⟨.low, .high, .input, s.bus.d, .low⟩

/-- 30_encoding.md rule R93: the bring-up nibbles, single, with RS and RW low. -/
def Obligations.BringUpNibblesAreSingle : Prop :=
  ∀ s : State,
    (∃ t, exec .bringUp0011 s = .next t ∧
      t.trace = s.trace ++ [.setRS false, .setRW false, .dirOut, .writeNibble 0b0011, .pulseEnable] ∧
      t.bus = ⟨.low, .low, .output, .nibble 0b0011, .low⟩) ∧
    (∃ t, exec .bringUp0010 s = .next t ∧
      t.trace = s.trace ++ [.setRS false, .setRW false, .dirOut, .writeNibble 0b0010, .pulseEnable] ∧
      t.bus = ⟨.low, .low, .output, .nibble 0b0010, .low⟩)

/-- The frame of the twelve micro-instructions and transfers (every instruction that is no host
operation): only the trace and the latches change. The model's choices: that they run on their own and
record no result (log entries 9 and 10), and that the status transfer run so draws none of the device's
answers, its nibbles being its own fields (log entry 10; inside `Update` and `Init` a status read draws
them, 43_scheduler.md rule R171). -/
def Obligations.TransferFrame : Prop :=
  ∀ (i : Instr) (s t : State), isHostOp i = false → exec i s = .next t →
    t.params = s.params ∧ t.phase = s.phase ∧ t.slots = s.slots ∧
    (∀ a, t.slots.read a = s.slots.read a) ∧ t.head = s.head ∧ t.count = s.count ∧
    t.results = s.results ∧ t.presented = s.presented ∧ t.device = s.device ∧ t.draws = s.draws

/-- 30_encoding.md rule R94: every entry a well-formed encoder operation appends is, as the byte it
will be sent as, one of the table's transfers, and running that transfer sends the entry. That a
transfer can be run on its own, and then completes in every state, is the model's choice (log entry
10). -/
def Obligations.AppendedEntriesAreTableTransfers : Prop :=
  ∀ (i : Instr) (e : Entry), isEncoder i = true → wellFormed i = true → e ∈ appends i →
    ∃ j, decode (.bus10 (busWord e.rs false e.payload)) = .ok j ∧
      ∀ s : State, ∃ t, exec j s = .next t ∧ t.trace = s.trace ++ byteEvents e.rs e.payload

/-! ## Rules of the whole machine -/

/-- 60_exceptions.md rule R232: the numeric values. -/
def Obligations.ResultCodesHaveTheirNumbers : Prop :=
  [ResultCode.ok, .invalidRow, .invalidDirection, .invalidParameter, .queueFull, .protocolFault,
    .hardwareFault, .notInitialized, .alreadyInitialized, .unterminated, .illegalOperation].map
    ResultCode.value = [0x00, 0x01, 0x02, 0x03, 0x04, 0x05, 0x06, 0x07, 0x08, 0x09, 0x0A]

/-- 60_exceptions.md rule R233: every host operation that completes returns exactly one of its
codes. -/
def Obligations.HostOperationsReturnOneOfTheirCodes : Prop :=
  ∀ (i : Instr) (s t : State), isHostOp i = true → exec i s = .next t →
    ∃ code ∈ possibleCodes i, t.results = s.results ++ [⟨.operation i, code⟩]

/-- 60_exceptions.md rule R235: a code other than `OK` leaves everything as it was, but for the two
met while the operation runs: `HardwareFault`, and `ProtocolFault` from a tag. -/
def Obligations.ErrorsArePrecise : Prop :=
  ∀ (i : Instr) (s t : State) (code : ResultCode), isHostOp i = true → exec i s = .next t →
    t.results = s.results ++ [⟨.operation i, code⟩] → code ≠ .ok → code ≠ .hardwareFault →
    ¬ (i = .update ∧ s.phase = .ready) →
    t = s.returns (.operation i) code

/-- 10_state.md rule R34: in `UNINIT` every operation but `Init` returns `NotInitialized`, in
`READY` `Init` returns `AlreadyInitialized`, in `FAULTED` every operation returns `ProtocolFault`,
none with another effect; and the phase changes only from `UNINIT` to `READY` by `Init` and from
`READY` to `FAULTED` by `Update`. Reset is `UNINIT`. -/
def Obligations.LifeCycle : Prop :=
  (∀ (i : Instr) (s : State), isHostOp i = true → i ≠ .init → s.phase = .uninit →
    exec i s = .next (s.returns (.operation i) .notInitialized)) ∧
  (∀ s : State, s.phase = .ready →
    exec .init s = .next (s.returns (.operation .init) .alreadyInitialized)) ∧
  (∀ (i : Instr) (s : State), isHostOp i = true → s.phase = .faulted →
    exec i s = .next (s.returns (.operation i) .protocolFault)) ∧
  (∀ (i : Instr) (s t : State), exec i s = .next t →
    t.phase = s.phase ∨ (i = .init ∧ s.phase = .uninit ∧ t.phase = .ready) ∨
      (i = .update ∧ s.phase = .ready ∧ t.phase = .faulted)) ∧
  State.reset.phase = .uninit

/-- 60_exceptions.md rule R237: in `FAULTED` every operation, `Init` included, returns
`ProtocolFault` with no other effect, and no step leaves `FAULTED` (decision D19 of
92_eei_decisions.md). -/
def Obligations.FaultedIsSticky : Prop :=
  (∀ (i : Instr) (s : State), isHostOp i = true → s.phase = .faulted →
    exec i s = .next (s.returns (.operation i) .protocolFault)) ∧
  ∀ s t : State, s.phase = .faulted → step s = .next t → t.phase = .faulted

/-- 10_state.md rule R36: no host operation changes an entry in the queue; entries leave only at the
head, one by `Update` or all by `Init`, and come only at the tail. -/
def Obligations.EntriesAreNeverMutated : Prop :=
  ∀ (i : Instr) (s t : State), isHostOp i = true → s.params.Ok → s.count ≤ s.params.qcap →
    exec i s = .next t →
    ∃ (gone : Nat) (es : List Entry), t.queue = s.queue.drop gone ++ es.map some ∧
      (gone = 0 ∨ (i = .update ∧ gone = 1 ∧ es = []) ∨ (i = .init ∧ gone = s.count ∧ es = []))

/-- 10_state.md rule R37: where the ring lies in `QS` is unobservable; sound states that agree in
the list view of the queue take steps that agree. -/
def Obligations.RingPlacementIsUnobservable : Prop :=
  ∀ s s' : State, s.Inv → s'.Inv → SameView s s' → sameOutcome (step s) (step s')

/-- Every step keeps a sound state sound: parameters in their constraints, `QS` canonical, indices
in range, the live window legal (30_encoding.md rule R88), `FAULTED` unreached. -/
def Obligations.StepKeepsSoundStates : Prop :=
  ∀ s t : State, s.Inv → step s = .next t → t.Inv

/-- Reset is sound, and its latches agree with its empty trace. The claim on `head`, `count` and
`QS` rests on log entries 1 and 2, on the parameters on log entry 3. -/
def Obligations.ResetIsSound : Prop := State.reset.Inv ∧ State.reset.BusInv

/-- From a sound state no step stops with a fault (30_encoding.md rule R88: the live window holds
only words the ENGINE wrote). -/
def Obligations.SoundStatesNeverFault : Prop :=
  ∀ (s : State) (f : Fault), s.Inv → step s ≠ .fault f

/-- 10_state.md rule R39: the latches are what the trace has set, and no nibble is written or read
against the direction of the data lines; every step keeps this. -/
def Obligations.StepKeepsLatchesAndDirection : Prop :=
  ∀ s t : State, s.BusInv → step s = .next t → t.BusInv

/-- 00_scope.md rule R16, 10_state.md rule R42: no step takes an event or a result back, and none
changes the configuration. -/
def Obligations.ObservationsAreIrrevocable : Prop :=
  ∀ s t : State, step s = .next t →
    t.params = s.params ∧ (∃ evs, t.trace = s.trace ++ evs) ∧
      (∃ rs, t.results = s.results ++ rs ∧ rs.length ≤ 1)

/-- 60_exceptions.md rule R247: after `Init`, well-formed operations other than `Init` keep a good
and sound state good. -/
def Obligations.WellFormedUseStaysGood : Prop :=
  ∀ (i : Instr) (s t : State), s.Inv → s.good = true → s.phase = .ready → isHostOp i = true →
    i ≠ .init → wellFormed i = true → exec i s = .next t → t.good = true ∧ t.phase = .ready
end

