-- ==== Sys2Proof/Laws/Decode.lean ====
section
/-! SUPPORT. What the fields of a word are, as numbers and over the encoder's layouts; proofs about
decoding cite these and do not unfold the field extractions. -/

namespace Sys2Proof

theorem opField_toNat (w : HostWord) : (opField w).toNat = w.toNat / 2 ^ 24 := by
  have := w.isLt
  simp [opField, BitVec.extractLsb'_toNat, Nat.shiftRight_eq_div_pow]
  omega

theorem rsvField_toNat (w : HostWord) : (rsvField w).toNat = w.toNat / 2 ^ 16 % 256 := by
  simp [rsvField, BitVec.extractLsb'_toNat, Nat.shiftRight_eq_div_pow]

theorem bField_toNat (w : HostWord) : (bField w).toNat = w.toNat / 2 ^ 8 % 256 := by
  simp [bField, BitVec.extractLsb'_toNat, Nat.shiftRight_eq_div_pow]

theorem aField_toNat (w : HostWord) : (aField w).toNat = w.toNat % 256 := by
  simp [aField, BitVec.extractLsb'_toNat]

theorem byte_eq_zero_iff (b : Byte) : b = 0 ↔ b.toNat = 0 :=
  ⟨fun h => h ▸ rfl, fun h => BitVec.eq_of_toNat_eq h⟩

theorem append_toNat {n : Nat} (x : BitVec n) (b : Byte) :
    (x ++ b : BitVec (n + 8)).toNat = x.toNat * 256 + b.toNat := by
  rw [BitVec.toNat_append, ← Nat.shiftLeft_add_eq_or_of_lt b.isLt, Nat.shiftLeft_eq]

theorem hostWord_toNat (op b a : Byte) :
    (hostWord op b a).toNat = op.toNat * 2 ^ 24 + b.toNat * 2 ^ 8 + a.toNat := by
  show (op ++ (0x00 : Byte) ++ b ++ a : BitVec (8 + 8 + 8 + 8)).toNat = _
  simp only [append_toNat]
  simp
  omega

theorem opField_hostWord (op b a : Byte) : opField (hostWord op b a) = op := by
  have := b.isLt
  have := a.isLt
  refine BitVec.eq_of_toNat_eq ?_
  rw [opField_toNat, hostWord_toNat]
  omega

theorem rsvField_hostWord (op b a : Byte) : rsvField (hostWord op b a) = 0 := by
  have := b.isLt
  have := a.isLt
  rw [byte_eq_zero_iff, rsvField_toNat, hostWord_toNat]
  omega

theorem bField_hostWord (op b a : Byte) : bField (hostWord op b a) = b := by
  have := b.isLt
  have := a.isLt
  refine BitVec.eq_of_toNat_eq ?_
  rw [bField_toNat, hostWord_toNat]
  omega

theorem aField_hostWord (op b a : Byte) : aField (hostWord op b a) = a := by
  have := a.isLt
  refine BitVec.eq_of_toNat_eq ?_
  rw [aField_toNat, hostWord_toNat]
  omega

/-- A host word is the layout of its own fields where `RSV` is zero. -/
theorem hostWord_fields (w : HostWord) (h : rsvField w = 0) :
    hostWord (opField w) (bField w) (aField w) = w := by
  refine BitVec.eq_of_toNat_eq ?_
  rw [byte_eq_zero_iff, rsvField_toNat] at h
  rw [hostWord_toNat, opField_toNat, bField_toNat, aField_toNat]
  omega

/-- A host word decodes or is illegal; there is no third answer. -/
theorem decode_host32 (w : HostWord) (str : List Byte) :
    decode (.host32 w str) =
      match decodeHost w str with
      | some i => .ok i
      | none => .error .illegalOperation := rfl

/-- The decoder over the layout, by the operation's number. -/
theorem decodeHost_hostWord (op b a : Byte) (str : List Byte) :
    decodeHost (hostWord op b a) str =
      match op.toNat with
      | 0 => if b = 0 ∧ a = 0 then some .init else none
      | 1 => if b = 0 ∧ a = 0 then some .update else none
      | 2 => if b = 0 ∧ a = 0 then some .clear else none
      | 3 => if b = 0 ∧ a = 0 then some .home else none
      | 4 => some (.setPosition a b)
      | 5 => if b = 0 then some (.putChar a) else none
      | 6 => if b = 0 ∧ a = 0 then some (.putString str) else none
      | 7 => some (.shiftDisplay a b)
      | 8 => some (.setCursorStyle a b)
      | _ => none := by
  unfold decodeHost
  simp only [rsvField_hostWord, opField_hostWord, bField_hostWord, aField_hostWord]
  rfl

/-- The tag of a storage word, as a number. -/
theorem tag_toNat (w : EntryWord) : (w.extractLsb' 8 8).toNat = w.toNat / 256 := by
  have := w.isLt
  simp [BitVec.extractLsb'_toNat, Nat.shiftRight_eq_div_pow]
  omega

/-- The payload of a storage word, as a number. -/
theorem payload_toNat (w : EntryWord) : (w.extractLsb' 0 8).toNat = w.toNat % 256 := by
  simp [BitVec.extractLsb'_toNat]

/-- The two tags as numbers. -/
theorem tag_eq_iff (w : EntryWord) :
    (w.extractLsb' 8 8 = tagCommand ↔ w.toNat / 256 = 0) ∧
      (w.extractLsb' 8 8 = tagData ↔ w.toNat / 256 = 1) := by
  rw [← tag_toNat]
  exact ⟨⟨fun h => h ▸ rfl, fun h => BitVec.eq_of_toNat_eq h⟩,
    ⟨fun h => h ▸ rfl, fun h => BitVec.eq_of_toNat_eq h⟩⟩

/-- The decoder over the byte-transfer layout, by RS and RW. -/
theorem decodeBus_busWord : ∀ (rs rw : Bool) (d : Byte),
    decodeBus (busWord rs rw d) =
      match rs, rw with
      | false, false => decodeBusCommand d
      | false, true => some (.readStatus (d.getLsbD 7) (d.extractLsb' 0 7))
      | true, false => some (.writeData d)
      | true, true => none := by decide

end Sys2Proof
end

