-- ==== Sys2Proof/Laws/State.lean ====
section
/-! SUPPORT. What each update of the state does to each field, one lemma a field and update. -/

namespace Sys2Proof.Machine

variable (s : State)

/-! ## `State.setSlot` -/

@[simp] theorem State.setSlot_params (i : Nat) (w : EntryWord) :
    (s.setSlot i w).params = s.params := rfl
@[simp] theorem State.setSlot_phase (i : Nat) (w : EntryWord) :
    (s.setSlot i w).phase = s.phase := rfl
@[simp] theorem State.setSlot_slots (i : Nat) (w : EntryWord) :
    (s.setSlot i w).slots = s.slots.write i w := rfl
@[simp] theorem State.setSlot_head (i : Nat) (w : EntryWord) :
    (s.setSlot i w).head = s.head := rfl
@[simp] theorem State.setSlot_count (i : Nat) (w : EntryWord) :
    (s.setSlot i w).count = s.count := rfl
@[simp] theorem State.setSlot_bus (i : Nat) (w : EntryWord) : (s.setSlot i w).bus = s.bus := rfl
@[simp] theorem State.setSlot_trace (i : Nat) (w : EntryWord) :
    (s.setSlot i w).trace = s.trace := rfl
@[simp] theorem State.setSlot_results (i : Nat) (w : EntryWord) :
    (s.setSlot i w).results = s.results := rfl
@[simp] theorem State.setSlot_presented (i : Nat) (w : EntryWord) :
    (s.setSlot i w).presented = s.presented := rfl
@[simp] theorem State.setSlot_device (i : Nat) (w : EntryWord) :
    (s.setSlot i w).device = s.device := rfl
@[simp] theorem State.setSlot_draws (i : Nat) (w : EntryWord) :
    (s.setSlot i w).draws = s.draws := rfl

/-! ## `State.append` -/

/-- What an enqueue with room does: the entry's word in the tail slot, one more in `count`. -/
def State.append (s : State) (e : Entry) : State :=
  { s.setSlot (s.ringSlot s.count) (entryWord e) with count := s.count + 1 }

/-- Several enqueues with room, in list order. -/
def State.appendAll : List Entry → State → State
  | [], s => s
  | e :: es, s => State.appendAll es (s.append e)

@[simp] theorem State.append_params (e : Entry) : (s.append e).params = s.params := rfl
@[simp] theorem State.append_phase (e : Entry) : (s.append e).phase = s.phase := rfl
@[simp] theorem State.append_slots (e : Entry) :
    (s.append e).slots = s.slots.write (s.ringSlot s.count) (entryWord e) := rfl
@[simp] theorem State.append_head (e : Entry) : (s.append e).head = s.head := rfl
@[simp] theorem State.append_count (e : Entry) : (s.append e).count = s.count + 1 := rfl
@[simp] theorem State.append_bus (e : Entry) : (s.append e).bus = s.bus := rfl
@[simp] theorem State.append_trace (e : Entry) : (s.append e).trace = s.trace := rfl
@[simp] theorem State.append_results (e : Entry) : (s.append e).results = s.results := rfl
@[simp] theorem State.append_presented (e : Entry) : (s.append e).presented = s.presented := rfl
@[simp] theorem State.append_device (e : Entry) : (s.append e).device = s.device := rfl
@[simp] theorem State.append_draws (e : Entry) : (s.append e).draws = s.draws := rfl

/-! ## `State.dropHead` -/

@[simp] theorem State.dropHead_params : s.dropHead.params = s.params := rfl
@[simp] theorem State.dropHead_phase : s.dropHead.phase = s.phase := rfl
@[simp] theorem State.dropHead_slots : s.dropHead.slots = s.slots := rfl
@[simp] theorem State.dropHead_head : s.dropHead.head = (s.head + 1) % s.params.qcap := rfl
@[simp] theorem State.dropHead_count : s.dropHead.count = s.count - 1 := rfl
@[simp] theorem State.dropHead_bus : s.dropHead.bus = s.bus := rfl
@[simp] theorem State.dropHead_trace : s.dropHead.trace = s.trace := rfl
@[simp] theorem State.dropHead_results : s.dropHead.results = s.results := rfl
@[simp] theorem State.dropHead_presented : s.dropHead.presented = s.presented := rfl
@[simp] theorem State.dropHead_device : s.dropHead.device = s.device := rfl
@[simp] theorem State.dropHead_draws : s.dropHead.draws = s.draws := rfl

/-! ## `State.resetQueue` -/

@[simp] theorem State.resetQueue_params : s.resetQueue.params = s.params := rfl
@[simp] theorem State.resetQueue_phase : s.resetQueue.phase = s.phase := rfl
@[simp] theorem State.resetQueue_slots : s.resetQueue.slots = s.slots := rfl
@[simp] theorem State.resetQueue_head : s.resetQueue.head = 0 := rfl
@[simp] theorem State.resetQueue_count : s.resetQueue.count = 0 := rfl
@[simp] theorem State.resetQueue_bus : s.resetQueue.bus = s.bus := rfl
@[simp] theorem State.resetQueue_trace : s.resetQueue.trace = s.trace := rfl
@[simp] theorem State.resetQueue_results : s.resetQueue.results = s.results := rfl
@[simp] theorem State.resetQueue_presented : s.resetQueue.presented = s.presented := rfl
@[simp] theorem State.resetQueue_device : s.resetQueue.device = s.device := rfl
@[simp] theorem State.resetQueue_draws : s.resetQueue.draws = s.draws := rfl

/-! ## `State.emit` -/

@[simp] theorem State.emit_params (ev : BusEvent) : (s.emit ev).params = s.params := rfl
@[simp] theorem State.emit_phase (ev : BusEvent) : (s.emit ev).phase = s.phase := rfl
@[simp] theorem State.emit_slots (ev : BusEvent) : (s.emit ev).slots = s.slots := rfl
@[simp] theorem State.emit_head (ev : BusEvent) : (s.emit ev).head = s.head := rfl
@[simp] theorem State.emit_count (ev : BusEvent) : (s.emit ev).count = s.count := rfl
@[simp] theorem State.emit_bus (ev : BusEvent) : (s.emit ev).bus = ev.latch s.bus := rfl
@[simp] theorem State.emit_trace (ev : BusEvent) : (s.emit ev).trace = s.trace ++ [ev] := rfl
@[simp] theorem State.emit_results (ev : BusEvent) : (s.emit ev).results = s.results := rfl
@[simp] theorem State.emit_presented (ev : BusEvent) : (s.emit ev).presented = s.presented := rfl
@[simp] theorem State.emit_device (ev : BusEvent) : (s.emit ev).device = s.device := rfl
@[simp] theorem State.emit_draws (ev : BusEvent) : (s.emit ev).draws = s.draws := rfl

/-! ## `State.drawn` -/

@[simp] theorem State.drawn_params : s.drawn.params = s.params := rfl
@[simp] theorem State.drawn_phase : s.drawn.phase = s.phase := rfl
@[simp] theorem State.drawn_slots : s.drawn.slots = s.slots := rfl
@[simp] theorem State.drawn_head : s.drawn.head = s.head := rfl
@[simp] theorem State.drawn_count : s.drawn.count = s.count := rfl
@[simp] theorem State.drawn_bus : s.drawn.bus = s.bus := rfl
@[simp] theorem State.drawn_trace : s.drawn.trace = s.trace := rfl
@[simp] theorem State.drawn_results : s.drawn.results = s.results := rfl
@[simp] theorem State.drawn_presented : s.drawn.presented = s.presented := rfl
@[simp] theorem State.drawn_device : s.drawn.device = s.device.drop 1 := rfl
@[simp] theorem State.drawn_draws : s.drawn.draws = s.draws + 1 := rfl

/-! ## `State.returns` -/

@[simp] theorem State.returns_params (c : HostCall) (code : ResultCode) :
    (s.returns c code).params = s.params := rfl
@[simp] theorem State.returns_phase (c : HostCall) (code : ResultCode) :
    (s.returns c code).phase = s.phase := rfl
@[simp] theorem State.returns_slots (c : HostCall) (code : ResultCode) :
    (s.returns c code).slots = s.slots := rfl
@[simp] theorem State.returns_head (c : HostCall) (code : ResultCode) :
    (s.returns c code).head = s.head := rfl
@[simp] theorem State.returns_count (c : HostCall) (code : ResultCode) :
    (s.returns c code).count = s.count := rfl
@[simp] theorem State.returns_bus (c : HostCall) (code : ResultCode) :
    (s.returns c code).bus = s.bus := rfl
@[simp] theorem State.returns_trace (c : HostCall) (code : ResultCode) :
    (s.returns c code).trace = s.trace := rfl
@[simp] theorem State.returns_results (c : HostCall) (code : ResultCode) :
    (s.returns c code).results = s.results ++ [⟨c, code⟩] := rfl
@[simp] theorem State.returns_presented (c : HostCall) (code : ResultCode) :
    (s.returns c code).presented = s.presented := rfl
@[simp] theorem State.returns_device (c : HostCall) (code : ResultCode) :
    (s.returns c code).device = s.device := rfl
@[simp] theorem State.returns_draws (c : HostCall) (code : ResultCode) :
    (s.returns c code).draws = s.draws := rfl

/-! ## `State.setPhase` -/

@[simp] theorem State.setPhase_params (p : Phase) : (s.setPhase p).params = s.params := rfl
@[simp] theorem State.setPhase_phase (p : Phase) : (s.setPhase p).phase = p := rfl
@[simp] theorem State.setPhase_slots (p : Phase) : (s.setPhase p).slots = s.slots := rfl
@[simp] theorem State.setPhase_head (p : Phase) : (s.setPhase p).head = s.head := rfl
@[simp] theorem State.setPhase_count (p : Phase) : (s.setPhase p).count = s.count := rfl
@[simp] theorem State.setPhase_bus (p : Phase) : (s.setPhase p).bus = s.bus := rfl
@[simp] theorem State.setPhase_trace (p : Phase) : (s.setPhase p).trace = s.trace := rfl
@[simp] theorem State.setPhase_results (p : Phase) : (s.setPhase p).results = s.results := rfl
@[simp] theorem State.setPhase_presented (p : Phase) : (s.setPhase p).presented = s.presented := rfl
@[simp] theorem State.setPhase_device (p : Phase) : (s.setPhase p).device = s.device := rfl
@[simp] theorem State.setPhase_draws (p : Phase) : (s.setPhase p).draws = s.draws := rfl

end Sys2Proof.Machine
end

