-- ==== Sys2Proof/Laws/Ops.lean ====
section
/-! SUPPORT. One lemma for each shared operation that says everything it can do; proofs cite these and
do not unfold the operations. -/

namespace Sys2Proof.Machine

/-! ## The bus port -/

theorem latchesAfter_append (a b : List BusEvent) (x : Bus) :
    latchesAfter (a ++ b) x = latchesAfter b (latchesAfter a x) := by
  induction a generalizing x with
  | nil => rfl
  | cons ev evs ih => simp [latchesAfter, ih]

theorem State.emitAll_eq (evs : List BusEvent) (s : State) :
    State.emitAll evs s =
      { s with trace := s.trace ++ evs, bus := latchesAfter evs s.bus } := by
  induction evs generalizing s with
  | nil => simp [State.emitAll, latchesAfter]
  | cons ev evs ih => simp [State.emitAll, ih, latchesAfter, State.emit]

theorem State.sendNibble_eq (s : State) (rs : Bool) (v : Nibble) :
    s.sendNibble rs v =
      { s with trace := s.trace ++ nibbleEvents rs v,
               bus := ⟨Level.ofBool rs, .low, .output, .nibble v, .low⟩ } := by
  simp [State.sendNibble, State.emitAll_eq, nibbleEvents, latchesAfter, BusEvent.latch, Level.ofBool]

theorem State.sendByte_eq (s : State) (rs : Bool) (b : Byte) :
    s.sendByte rs b =
      { s with trace := s.trace ++ byteEvents rs b,
               bus := ⟨Level.ofBool rs, .low, .output, .nibble (lowNibble b), .low⟩ } := by
  simp [State.sendByte, State.sendNibble_eq, byteEvents]

theorem State.sendEntry_eq (s : State) (e : Entry) : s.sendEntry e = s.sendByte e.rs e.payload := by
  cases e <;> rfl

theorem highNibble_joinNibbles : ∀ hi lo : Nibble, highNibble (joinNibbles hi lo) = hi := by decide

theorem lowNibble_joinNibbles : ∀ hi lo : Nibble, lowNibble (joinNibbles hi lo) = lo := by decide

theorem joinNibbles_halves : ∀ b : Byte, joinNibbles (highNibble b) (lowNibble b) = b := by decide

theorem State.readStatus_eq (s : State) :
    s.readStatus = (s.statusAnswer 0,
      { s with trace := s.trace ++ statusEvents (s.statusAnswer 0),
               bus := ⟨.low, .high, .input, s.bus.d, .low⟩,
               device := s.device.drop 2, draws := s.draws + 2 }) := by
  simp [State.readStatus, State.readNibble, State.emitAll_eq, State.statusAnswer, statusEvents,
    highNibble_joinNibbles, lowNibble_joinNibbles, latchesAfter, BusEvent.latch, Level.ofBool,
    State.answer, State.emit, State.drawn]

/-! ## The queue storage space -/

theorem Memory.read_write_same (m : Memory) (i : Nat) (w : EntryWord) :
    (m.write i w).read i = w := by
  induction m with
  | nil => simp [Memory.write, Memory.read]
  | cons c m ih =>
    obtain ⟨k, x⟩ := c
    simp only [Memory.write]
    split
    · simp [Memory.read]
    · split
      · simp [Memory.read]
      · simp [Memory.read, ih, Ne.symm ‹¬i = k›]

theorem Memory.read_write_other (m : Memory) {i j : Nat} (w : EntryWord) (h : j ≠ i) :
    (m.write i w).read j = m.read j := by
  induction m with
  | nil => simp [Memory.write, Memory.read, h.symm]
  | cons c m ih =>
    obtain ⟨k, x⟩ := c
    simp only [Memory.write]
    split
    · simp [Memory.read, h.symm]
    · split
      · subst i; simp [Memory.read, h.symm]
      · simp [Memory.read, ih]

theorem Memory.mem_write {m : Memory} {i : Nat} {w : EntryWord} {c : Nat × EntryWord}
    (h : c ∈ m.write i w) : c = (i, w) ∨ c ∈ m := by
  induction m with
  | nil => simpa [Memory.write] using h
  | cons d m ih =>
    obtain ⟨k, x⟩ := d
    simp only [Memory.write] at h
    split at h
    · simpa using h
    · split at h
      · rcases List.mem_cons.mp h with h | h
        · exact .inl h
        · exact .inr (List.mem_cons_of_mem _ h)
      · rcases List.mem_cons.mp h with h | h
        · exact .inr (h ▸ List.mem_cons_self)
        · exact (ih h).imp id (List.mem_cons_of_mem _)

theorem Memory.write_wf {m : Memory} (i : Nat) (w : EntryWord) (h : m.wf) : (m.write i w).wf := by
  induction m with
  | nil => simp [Memory.write]
  | cons c m ih =>
    obtain ⟨k, x⟩ := c
    obtain ⟨h1, h2⟩ := List.pairwise_cons.mp h
    simp only [Memory.write]
    split
    · refine List.pairwise_cons.mpr ⟨fun c hc => ?_, h⟩
      rcases List.mem_cons.mp hc with rfl | hc
      · assumption
      · exact lt_trans ‹i < k› (h1 c hc)
    · split
      · subst i; exact List.pairwise_cons.mpr ⟨h1, h2⟩
      · refine List.pairwise_cons.mpr ⟨fun c hc => ?_, ih h2⟩
        rcases Memory.mem_write hc with rfl | hc
        · show k < i
          omega
        · exact h1 c hc

/-! ## The ring -/

theorem decodeEntry_entryWord (e : Entry) : decodeEntry (entryWord e) = some e := by
  cases e with
  | command b => revert b; decide
  | data b => revert b; decide

theorem State.append_ringSlot (s : State) (e : Entry) (k : Nat) :
    (s.append e).ringSlot k = s.ringSlot k := rfl

theorem State.ringSlot_inj (s : State) {j k : Nat} (hj : j < s.params.qcap) (hk : k < s.params.qcap)
    (h : s.ringSlot j = s.ringSlot k) : j = k := by
  have h' : s.head + j ≡ s.head + k [MOD s.params.qcap] := h
  exact Nat.ModEq.eq_of_lt_of_lt (Nat.ModEq.add_left_cancel' _ h') hj hk

theorem State.append_queue (s : State) (e : Entry) (h : s.count < s.params.qcap) :
    (s.append e).queue = s.queue ++ [some e] := by
  unfold State.queue
  rw [State.append_count, List.range_succ, List.map_append]
  congr 1
  · refine List.map_congr_left fun k hk => ?_
    have hk' := List.mem_range.mp hk
    rw [State.append_ringSlot, State.append_slots, Memory.read_write_other]
    intro hEq
    have := s.ringSlot_inj (hk'.trans h) h hEq
    omega
  · simp [State.append_ringSlot, Memory.read_write_same, decodeEntry_entryWord]

/-! ### Enqueues as appends -/

/-- `enqueue` on a full queue. -/
theorem State.enqueue_full (s : State) (e : Entry) (h : s.count = s.params.qcap) :
    s.enqueue e = .error (.code .queueFull) := by simp [State.enqueue, h]

/-- `enqueue` with room: its slot exists. -/
theorem State.enqueue_room (s : State) (e : Entry) (h : s.count < s.params.qcap) :
    s.enqueue e = .ok (s.append e) := by
  have hi : s.ringSlot s.count < s.params.qcap := Nat.mod_lt _ (by omega)
  simp [State.enqueue, State.memWrite, hi, Nat.ne_of_lt h]
  rfl

theorem State.enqueueEach_room (es : List Entry) (s : State)
    (h : s.count + es.length ≤ s.params.qcap) :
    State.enqueueEach es s = .ok (State.appendAll es s) := by
  induction es generalizing s with
  | nil => rfl
  | cons e es ih =>
    simp only [List.length_cons] at h
    simp only [State.enqueueEach, State.appendAll, s.enqueue_room e (by omega)]
    exact ih _ (by simp; omega)

/-- `enqueue_all` without room for all. -/
theorem State.enqueueAll_full (s : State) (es : List Entry)
    (h : s.params.qcap < s.count + es.length) :
    s.enqueueAll es = .error (.code .queueFull) := if_pos h

/-- `enqueue_all` with room for all: no enqueue of it fails. -/
theorem State.enqueueAll_room (s : State) (es : List Entry)
    (h : s.count + es.length ≤ s.params.qcap) :
    s.enqueueAll es = .ok (State.appendAll es s) := by
  rw [State.enqueueAll, if_neg (by omega), State.enqueueEach_room es s h]

theorem State.appendAll_frame (es : List Entry) (s : State) :
    State.appendAll es s =
      { s with slots := (State.appendAll es s).slots, count := s.count + es.length } := by
  induction es generalizing s with
  | nil => rfl
  | cons e es ih =>
    rw [State.appendAll, ih]
    simp [State.append]
    omega

theorem State.appendAll_queue (es : List Entry) (s : State)
    (h : s.count + es.length ≤ s.params.qcap) :
    (State.appendAll es s).queue = s.queue ++ es.map some := by
  induction es generalizing s with
  | nil => simp [State.appendAll]
  | cons e es ih =>
    simp only [List.length_cons] at h
    rw [State.appendAll, ih _ (by simp; omega), s.append_queue e (by omega)]
    simp

theorem State.appendAll_read_other (es : List Entry) (s : State) (i : Nat)
    (h : ∀ k < es.length, i ≠ s.ringSlot (s.count + k)) :
    (State.appendAll es s).slots.read i = s.slots.read i := by
  induction es generalizing s with
  | nil => rfl
  | cons e es ih =>
    rw [State.appendAll, ih, State.append_slots, Memory.read_write_other _ _ (by simpa using h 0 (by simp))]
    intro k hk
    have := h (k + 1) (by simpa using hk)
    rwa [State.append_ringSlot, State.append_count, Nat.add_assoc, Nat.add_comm 1 k]

theorem State.appendAll_wf (es : List Entry) (s : State) (h : s.slots.wf) :
    (State.appendAll es s).slots.wf := by
  induction es generalizing s with
  | nil => exact h
  | cons e es ih => exact ih _ (Memory.write_wf _ _ h)

theorem State.appendAll_inRange (es : List Entry) (s : State) (hq : 0 < s.params.qcap)
    (h : ∀ c ∈ s.slots, c.1 < s.params.qcap) :
    ∀ c ∈ (State.appendAll es s).slots, c.1 < s.params.qcap := by
  induction es generalizing s with
  | nil => exact h
  | cons e es ih =>
    refine ih (s.append e) hq fun c hc => ?_
    rcases Memory.mem_write hc with rfl | hc
    · exact Nat.mod_lt _ hq
    · exact h c hc

theorem State.dropHead_ringSlot (s : State) (k : Nat) :
    s.dropHead.ringSlot k = s.ringSlot (k + 1) := by
  simp only [State.ringSlot, State.dropHead_head, State.dropHead_params, Nat.mod_add_mod]
  congr 1
  omega

theorem State.dropHead_queue (s : State) : s.dropHead.queue = s.queue.tail := by
  unfold State.queue
  cases hc : s.count with
  | zero => simp [hc]
  | succ n =>
    rw [State.dropHead_count, hc, Nat.add_sub_cancel, List.range_succ_eq_map, List.map_cons,
      List.tail_cons, List.map_map]
    simp [Function.comp_def, State.dropHead_ringSlot]

theorem State.queue_length (s : State) : s.queue.length = s.count := by simp [State.queue]

theorem State.queue_getElem? (s : State) {k : Nat} (h : k < s.count) :
    s.queue[k]? = some (decodeEntry (s.slots.read (s.ringSlot k))) := by
  simp [State.queue, h]

/-! ## Status reads and polls -/

theorem State.answer_afterReads (s : State) (n k : Nat) :
    (s.afterReads n).answer k = s.answer (2 * n + k) := by
  simp [State.answer, State.afterReads, Nat.add_assoc]

theorem State.statusAnswer_afterReads (s : State) (n k : Nat) :
    (s.afterReads n).statusAnswer k = s.statusAnswer (n + k) := by
  simp only [State.statusAnswer, State.answer_afterReads]
  congr 2 <;> omega

theorem State.afterReads_zero (s : State) : s.afterReads 0 = s := by
  simp [State.afterReads, State.statusReads]

theorem State.afterReads_afterReads (s : State) (n k : Nat) :
    (s.afterReads n).afterReads k = s.afterReads (n + k) := by
  have h : s.statusReads n ++ (s.afterReads n).statusReads k = s.statusReads (n + k) := by
    simp [State.statusReads, List.range_add, List.flatMap_map,
      State.statusAnswer_afterReads]
  apply State.ext <;> try rfl
  · by_cases hk : k = 0 <;> by_cases hn : n = 0 <;> simp [State.afterReads, hk, hn]
  · simp [State.afterReads, ← h]
  · simp [State.afterReads, Nat.mul_add]
  · simp [State.afterReads, Nat.mul_add, Nat.add_assoc]

theorem State.readStatus_afterReads (s : State) :
    s.readStatus = (s.statusAnswer 0, s.afterReads 1) := by
  rw [State.readStatus_eq]
  simp [State.afterReads, State.statusReads]

theorem State.pollReady_ready {k j : Nat} (s : State) (hj : j < k)
    (hb : ∀ m < j, busy (s.statusAnswer m) = true) (hr : busy (s.statusAnswer j) = false) :
    State.pollReady k s = (true, s.afterReads (j + 1)) := by
  induction k generalizing s j with
  | zero => omega
  | succ k ih =>
    simp only [State.pollReady, State.readStatus_afterReads]
    cases j with
    | zero => simp [hr]
    | succ j =>
      rw [hb 0 (by omega), if_pos rfl, ih (j := j) _ (by omega)]
      · rw [State.afterReads_afterReads, Nat.add_comm 1]
      · intro m hm
        rw [State.statusAnswer_afterReads]
        exact hb _ (by omega)
      · rw [State.statusAnswer_afterReads, Nat.add_comm 1]
        exact hr

theorem State.pollReady_busy {k : Nat} (s : State)
    (hb : ∀ m < k, busy (s.statusAnswer m) = true) :
    State.pollReady k s = (false, s.afterReads k) := by
  induction k generalizing s with
  | zero => simp [State.pollReady, State.afterReads_zero]
  | succ k ih =>
    simp only [State.pollReady, State.readStatus_afterReads]
    rw [hb 0 (by omega), if_pos rfl, ih]
    · rw [State.afterReads_afterReads, Nat.add_comm 1]
    · intro m hm
      rw [State.statusAnswer_afterReads]
      exact hb _ (by omega)

theorem State.pollReady_cases (k : Nat) (s : State) :
    (∃ j < k, (∀ m < j, busy (s.statusAnswer m) = true) ∧ busy (s.statusAnswer j) = false ∧
      State.pollReady k s = (true, s.afterReads (j + 1))) ∨
    ((∀ m < k, busy (s.statusAnswer m) = true) ∧
      State.pollReady k s = (false, s.afterReads k)) := by
  by_cases h : ∃ j, j < k ∧ busy (s.statusAnswer j) = false
  · obtain ⟨hj, hr⟩ := Nat.find_spec h
    have hb : ∀ m < Nat.find h, busy (s.statusAnswer m) = true := fun m hm => by
      have := Nat.find_min h hm
      simp only [not_and, Bool.not_eq_false] at this
      exact this (hm.trans hj)
    exact .inl ⟨_, hj, hb, hr, s.pollReady_ready hj hb hr⟩
  · have hb : ∀ m < k, busy (s.statusAnswer m) = true := fun m hm => by
      have := not_exists.mp h m
      simpa [hm] using this
    exact .inr ⟨hb, s.pollReady_busy hb⟩

/-- A poll changes nothing but the bus, the trace and the answers drawn. -/
theorem State.pollReady_frame (k : Nat) (s : State) :
    ∃ n ≤ k, (State.pollReady k s).2 = s.afterReads n := by
  rcases State.pollReady_cases k s with ⟨j, hj, _, _, h⟩ | ⟨_, h⟩
  · exact ⟨j + 1, hj, by rw [h]⟩
  · exact ⟨k, le_rfl, by rw [h]⟩

/-! ## Host operations -/

/-- An encoder operation either returns a code other than `OK` and nothing else, or appends all its
entries. -/
theorem State.encoderOp_cases (s : State) (i : Instr) (check : Option ResultCode)
    (es : List Entry) :
    (∃ code, s.encoderOp i check es = .next (s.returns (.operation i) code) ∧
      (gate s.phase = some code ∨
        (gate s.phase = none ∧ check = some code) ∨
        (gate s.phase = none ∧ check = none ∧ s.params.qcap < s.count + es.length ∧
          code = .queueFull))) ∨
    (gate s.phase = none ∧ check = none ∧ s.count + es.length ≤ s.params.qcap ∧
      s.encoderOp i check es = .next ((State.appendAll es s).returns (.operation i) .ok)) := by
  unfold State.encoderOp
  cases hg : gate s.phase with
  | some c => exact .inl ⟨c, rfl, .inl rfl⟩
  | none =>
    cases check with
    | some c => exact .inl ⟨c, rfl, by simp⟩
    | none =>
      by_cases h : s.params.qcap < s.count + es.length
      · exact .inl ⟨.queueFull, by simp [s.enqueueAll_full es h], by simp [h]⟩
      · exact .inr ⟨by simp, rfl, by omega, by simp [s.enqueueAll_room es (by omega)]⟩

/-- A read of an index below `QCAP` gives the slot's word. -/
theorem State.memRead_inRange (s : State) {i : Nat} (h : i < s.params.qcap) :
    s.memRead i = .ok (s.slots.read i) := if_pos h

/-- A write to an index below `QCAP` replaces the slot's word. -/
theorem State.memWrite_inRange (s : State) {i : Nat} (w : EntryWord) (h : i < s.params.qcap) :
    s.memWrite i w = .ok (s.setSlot i w) := if_pos h

/-- An index at or above `QCAP` names no slot. -/
theorem State.mem_outOfRange (s : State) {i : Nat} (w : EntryWord) (h : s.params.qcap ≤ i) :
    s.memRead i = .error .noSuchSlot ∧ s.memWrite i w = .error .noSuchSlot :=
  ⟨if_neg (Nat.not_lt.mpr h), if_neg (Nat.not_lt.mpr h)⟩

/-- What a dequeue of a non-empty queue gives. -/
theorem State.dequeue_eq (s : State) (h : 0 < s.count) :
    s.dequeue = match s.memRead s.head with
      | .ok w => .ok (some (w, s.dropHead))
      | .error f => .error f := by
  have : s.isEmpty = false := by simp [State.isEmpty]; omega
  cases hr : s.memRead s.head <;> simp [State.dequeue, this, hr]

theorem State.memRead_ok (s : State) {i : Nat} {w : EntryWord} (h : s.memRead i = .ok w) :
    i < s.params.qcap ∧ s.slots.read i = w := by
  unfold State.memRead at h
  split at h
  · exact ⟨‹_›, Except.ok.inj h⟩
  · simp at h

/-- Everything `Update` can answer: a code of the prologue, an empty queue, a busy device, a fault of
the head's slot, or the head word taken and transmitted. -/
theorem execUpdate_cases (s : State) :
    (∃ code, gate s.phase = some code ∧
      execUpdate s = .next (s.returns (.operation .update) code)) ∨
    (s.phase = .ready ∧ s.count = 0 ∧ execUpdate s = .next (s.returns (.operation .update) .ok)) ∨
    (s.phase = .ready ∧ 0 < s.count ∧ busy (s.statusAnswer 0) = true ∧
      execUpdate s = .next ((s.afterReads 1).returns (.operation .update) .ok)) ∨
    (s.phase = .ready ∧ 0 < s.count ∧ busy (s.statusAnswer 0) = false ∧
      ∃ f, s.memRead s.head = .error f ∧ execUpdate s = .fault f) ∨
    (s.phase = .ready ∧ 0 < s.count ∧ busy (s.statusAnswer 0) = false ∧
      ∃ w, s.memRead s.head = .ok w ∧
        execUpdate s = .next ((s.afterReads 1).dropHead.transmit w)) := by
  unfold execUpdate
  cases hp : s.phase with
  | faulted => exact .inl ⟨_, rfl, rfl⟩
  | uninit => exact .inl ⟨_, rfl, rfl⟩
  | ready =>
    by_cases hc : s.count = 0
    · exact .inr (.inl ⟨by simp, hc, by simp [gate, State.isEmpty, hc]⟩)
    · have hc' : 0 < s.count := Nat.pos_of_ne_zero hc
      have he : s.isEmpty = false := by simp [State.isEmpty, hc]
      have hd := (s.afterReads 1).dequeue_eq hc'
      have hm : (s.afterReads 1).memRead (s.afterReads 1).head = s.memRead s.head := rfl
      simp only [gate, he, State.readStatus_afterReads]
      cases hb : busy (s.statusAnswer 0) with
      | true => exact .inr (.inr (.inl ⟨by simp, hc', by simp, by simp⟩))
      | false =>
        rw [hd, hm]
        cases hr : s.memRead s.head with
        | error f => exact .inr (.inr (.inr (.inl ⟨by simp, hc', by simp, f, rfl, by simp⟩)))
        | ok w => exact .inr (.inr (.inr (.inr ⟨by simp, hc', by simp, w, rfl, by simp⟩)))

/-! ## `Init` -/

/-- Steps 1 and 2 of `Init` in closed form. -/
theorem State.bringUp_eq (s : State) :
    s.bringUp = { s with trace := s.trace ++ bringUpEvents s.params,
                         bus := ⟨.low, .low, .output, .nibble 0b0010, .low⟩ } := by
  simp [State.bringUp, State.sendNibble_eq, State.emit, bringUpEvents, BusEvent.latch, Level.ofBool]

/-- One set-up byte and its poll. -/
theorem State.setUp_cons (b : Byte) (bs : List Byte) (s : State) :
    State.setUp (b :: bs) s =
      if (State.pollReady s.params.initPollLimit (s.sendByte false b)).1 then
        State.setUp bs (State.pollReady s.params.initPollLimit (s.sendByte false b)).2
      else (false, (State.pollReady s.params.initPollLimit (s.sendByte false b)).2) := rfl

/-- A state after work on the bus: events at the end of the trace, the latches given, `n` answers
drawn, all else as it was. -/
def State.onBus (s : State) (evs : List BusEvent) (bus : Bus) (n : Nat) : State :=
  { s with trace := s.trace ++ evs, bus := bus, device := s.device.drop n, draws := s.draws + n }

section OnBus

variable (s : State) (evs : List BusEvent) (bus : Bus) (n : Nat)

@[simp] theorem State.onBus_params : (s.onBus evs bus n).params = s.params := rfl
@[simp] theorem State.onBus_phase : (s.onBus evs bus n).phase = s.phase := rfl
@[simp] theorem State.onBus_slots : (s.onBus evs bus n).slots = s.slots := rfl
@[simp] theorem State.onBus_head : (s.onBus evs bus n).head = s.head := rfl
@[simp] theorem State.onBus_count : (s.onBus evs bus n).count = s.count := rfl
@[simp] theorem State.onBus_bus : (s.onBus evs bus n).bus = bus := rfl
@[simp] theorem State.onBus_trace : (s.onBus evs bus n).trace = s.trace ++ evs := rfl
@[simp] theorem State.onBus_results : (s.onBus evs bus n).results = s.results := rfl
@[simp] theorem State.onBus_presented : (s.onBus evs bus n).presented = s.presented := rfl
@[simp] theorem State.onBus_device : (s.onBus evs bus n).device = s.device.drop n := rfl
@[simp] theorem State.onBus_draws : (s.onBus evs bus n).draws = s.draws + n := rfl

end OnBus

theorem State.onBus_onBus (s : State) (evs evs' : List BusEvent) (bus bus' : Bus) (n n' : Nat) :
    (s.onBus evs bus n).onBus evs' bus' n' = s.onBus (evs ++ evs') bus' (n + n') := by
  simp [State.onBus, Nat.add_assoc]

theorem State.statusAnswer_onBus (s : State) (evs : List BusEvent) (bus : Bus) (n k : Nat) :
    (s.onBus evs bus (2 * n)).statusAnswer k = s.statusAnswer (n + k) :=
  s.statusAnswer_afterReads n k

/-- The status reads from the `a`-th answer on. -/
theorem State.statusReads_onBus (s : State) (evs : List BusEvent) (bus : Bus) (a n : Nat) :
    (s.onBus evs bus (2 * a)).statusReads n =
      (List.range' a n).flatMap fun k => statusEvents (s.statusAnswer k) := by
  simp [State.statusReads, State.statusAnswer_onBus, List.range'_eq_map_range, List.flatMap_map]

theorem State.statusReads_length (s : State) (n : Nat) : (s.statusReads n).length = 7 * n := by
  simp [State.statusReads, statusEvents, Nat.mul_comm]

theorem State.sendByte_onBus (s : State) (rs : Bool) (b : Byte) :
    s.sendByte rs b = s.onBus (byteEvents rs b)
      ⟨Level.ofBool rs, .low, .output, .nibble (lowNibble b), .low⟩ 0 := by
  simp [State.sendByte_eq, State.onBus]

theorem State.statusAnswer_sendByte (s : State) (rs : Bool) (b : Byte) (k : Nat) :
    (s.sendByte rs b).statusAnswer k = s.statusAnswer k := by
  rw [State.sendByte_eq]
  rfl

theorem State.afterReads_onBus (s : State) (n : Nat) :
    s.afterReads n = s.onBus (s.statusReads n)
      (if n = 0 then s.bus else ⟨.low, .high, .input, s.bus.d, .low⟩) (2 * n) := rfl

/-- One set-up byte whose poll finds the device ready at its `j`-th further status read. -/
theorem State.setUp_ready (b : Byte) (bs : List Byte) (s : State) {j : Nat}
    (hj : j < s.params.initPollLimit) (hb : ∀ m < j, busy (s.statusAnswer m) = true)
    (hr : busy (s.statusAnswer j) = false) :
    State.setUp (b :: bs) s = State.setUp bs (s.onBus
      (byteEvents false b ++ s.statusReads (j + 1))
      ⟨.low, .high, .input, .nibble (lowNibble b), .low⟩ (2 * (j + 1))) := by
  have hreads : ∀ n, (s.sendByte false b).statusReads n = s.statusReads n := fun n => by
    simp [State.statusReads, State.statusAnswer_sendByte]
  rw [State.setUp_cons, State.pollReady_ready _ hj]
  · rw [if_pos rfl, State.afterReads_onBus, hreads, State.sendByte_onBus, State.onBus_onBus]
    simp
  · simpa [State.statusAnswer_sendByte] using hb
  · simpa [State.statusAnswer_sendByte] using hr

/-- One set-up byte whose poll finds the device busy up to the limit. -/
theorem State.setUp_busy (b : Byte) (bs : List Byte) (s : State)
    (hb : ∀ m < s.params.initPollLimit, busy (s.statusAnswer m) = true) :
    State.setUp (b :: bs) s = (false, (s.sendByte false b).afterReads s.params.initPollLimit) := by
  rw [State.setUp_cons, State.pollReady_busy]
  · rfl
  · simpa [State.statusAnswer_sendByte] using hb

/-- The set-up bytes change nothing but the bus, the trace and the answers drawn, and emit at most one
byte and `INIT_POLL_LIMIT` status reads each. -/
theorem State.setUp_frame (bs : List Byte) (s : State) :
    ∃ evs bus n, evs.length ≤ bs.length * (10 + 7 * s.params.initPollLimit) ∧
      (State.setUp bs s).2 = s.onBus evs bus n := by
  induction bs generalizing s with
  | nil => exact ⟨[], s.bus, 0, by simp, by simp [State.setUp, State.onBus]⟩
  | cons b bs ih =>
    obtain ⟨n, hn, hp⟩ := State.pollReady_frame s.params.initPollLimit (s.sendByte false b)
    have hb : (byteEvents false b).length = 10 := rfl
    have hl := (s.sendByte false b).statusReads_length n
    rw [State.afterReads_onBus] at hp
    generalize (if n = 0 then (s.sendByte false b).bus else _) = bus₁ at hp
    generalize (s.sendByte false b).statusReads n = reads at hp hl
    rw [State.sendByte_onBus, State.onBus_onBus] at hp
    rw [State.setUp_cons, State.sendByte_onBus, hp]
    split
    · obtain ⟨evs, bus, m, he, h⟩ := ih (s.onBus (byteEvents false b ++ reads) bus₁ (0 + 2 * n))
      refine ⟨byteEvents false b ++ reads ++ evs, bus, 0 + 2 * n + m, ?_, by
        rw [h, State.onBus_onBus]⟩
      simp only [State.onBus_params] at he
      simp only [List.length_append, hl, List.length_cons, hb, Nat.add_mul, Nat.one_mul]
      omega
    · refine ⟨byteEvents false b ++ reads, bus₁, 0 + 2 * n, ?_, rfl⟩
      simp only [List.length_append, hl, List.length_cons, hb, Nat.add_mul, Nat.one_mul]
      omega

/-! ## Steps -/

/-- Everything a step can be: waiting, an instruction run on the state with its word taken, or a word
that encodes nothing. -/
theorem step_cases (s : State) :
    (s.presented = [] ∧ step s = .next s) ∨
    (∃ p rest i, s.presented = p :: rest ∧ decode p = .ok i ∧
      step s = exec i { s with presented := rest }) ∨
    (∃ p rest e, s.presented = p :: rest ∧ decode p = .error e ∧
      step s = rejectWord p { s with presented := rest }) := by
  unfold step State.fetch
  cases hp : s.presented with
  | nil => exact .inl ⟨rfl, rfl⟩
  | cons p rest =>
    cases hd : decode p with
    | ok i => exact .inr (.inl ⟨p, rest, i, rfl, hd, by simp [hd]⟩)
    | error e => exact .inr (.inr ⟨p, rest, e, rfl, hd, by simp [hd]⟩)

end Sys2Proof.Machine
end

