-- ==== Sys2Proof/Laws/Exec.lean ====
section
/-! SUPPORT. What the meanings answer, by kind of instruction: the transfers emit, an encoder operation
is the shared one over its entries, `Init` returns a code at once or does its work on the bus. -/

namespace Sys2Proof.Machine

/-! ## Transfers -/

/-- A byte write as the events it emits. -/
theorem State.sendByte_emitAll (s : State) (rs : Bool) (b : Byte) :
    s.sendByte rs b = State.emitAll (byteEvents rs b) s := by
  rw [State.emitAll_eq, State.sendByte_eq]
  rfl

/-- An instruction that is no host operation emits events that keep to the direction of the data
lines, and does nothing else. -/
theorem exec_transfer (i : Instr) (s : State) (h : isHostOp i = false) :
    ∃ evs, exec i s = .next (State.emitAll evs s) ∧ drivesInTurn evs s.bus = true := by
  have send : ∀ rs b, ∃ evs, (.next (s.sendByte rs b) : Host.Outcome State Fault Refusal) =
      .next (State.emitAll evs s) ∧ drivesInTurn evs s.bus = true :=
    fun rs b => ⟨byteEvents rs b, by rw [State.sendByte_emitAll], rfl⟩
  cases i <;> simp only [isHostOp, Bool.true_eq_false] at h
  case data => exact send true _
  case writeData => exact send true _
  case readStatus => exact ⟨_, rfl, rfl⟩
  case bringUp0011 => exact ⟨_, rfl, rfl⟩
  case bringUp0010 => exact ⟨_, rfl, rfl⟩
  all_goals exact send false _

/-- The transfer of a byte word that decodes is the byte write of that word. -/
theorem exec_busWord (rs : Bool) (b : Byte) (i : Instr) (s : State)
    (h : decodeBus (busWord rs false b) = some i) : exec i s = .next (s.sendByte rs b) := by
  cases rs with
  | true =>
    have hd : ∀ b : Byte, decodeBus (busWord true false b) = some (.writeData b) := by decide
    rw [hd] at h
    cases h
    rfl
  | false =>
    have hd : ∀ b : Byte, decodeBus (busWord false false b) = decodeBusCommand b := by decide
    have sent : ∀ b : Byte, (match decodeBusCommand b with
        | some .clearDisplay => decide (b = clearByte)
        | some .returnHome => decide (b = homeByte)
        | some (.displayControl c k) => decide (b = styleByte c k)
        | some (.displayShift r) => decide (b = shiftByte r)
        | some .functionSet => decide (b = functionSetByte)
        | some (.setDdramAddress a) => decide (b = 0x80 ||| a.setWidth 8)
        | none => true
        | some _ => false) = true := by decide
    have := sent b
    rw [hd] at h
    rw [h] at this
    cases i <;> simp at this <;> rw [this] <;> rfl

/-! ## Encoder operations -/

/-- The masked sum of `SetPosition` is a remainder. -/
theorem ddramAddress_eq (column row : Byte) :
    ddramAddress column row = (rowBase row + column.toNat) % 128 := by
  rw [ddramAddress, show 0x7F = 2 ^ 7 - 1 from rfl, Nat.and_two_pow_sub_one_eq_mod]

/-- A flag below two is one of the two bits. -/
theorem byte_lt_two {b : Byte} (h : b.toNat < 2) : b = 0 ∨ b = 1 := by
  rcases Nat.lt_or_ge b.toNat 1 with h' | h'
  · exact .inl (BitVec.eq_of_toNat_eq (by simp; omega))
  · exact .inr (BitVec.eq_of_toNat_eq (by simp; omega))

/-- The display-control byte of two flags. -/
theorem styleByte_eq {c b : Byte} (hc : c.toNat < 2) (hb : b.toNat < 2) :
    styleByte (c == 1) (b == 1) = BitVec.ofNat 8 (0x0C + 2 * c.toNat + b.toNat) := by
  rcases byte_lt_two hc with rfl | rfl <;> rcases byte_lt_two hb with rfl | rfl <;> decide

/-- A well-formed encoder operation is the shared one over the entries it appends. -/
theorem exec_encoder_wellFormed (i : Instr) (s : State) (h : isEncoder i = true)
    (hw : wellFormed i = true) : exec i s = s.encoderOp i none (appends i) := by
  cases i <;> simp only [isEncoder, Bool.false_eq_true] at h
  case setPosition column row =>
    have hr : ¬ 1 < row.toNat := by
      have : row.toNat < 2 := by simpa [wellFormed] using hw
      omega
    simp [exec, execSetPosition, checkRow, hr, appends, setAddressByte, ddramAddress_eq, rowBase]
  case putString str =>
    have ht : checkTerminated str = none := by
      obtain ⟨b, hb, h0⟩ := List.any_eq_true.mp hw
      have : b = terminator := BitVec.eq_of_toNat_eq (by simpa [terminator] using h0)
      simp [checkTerminated, ← this, hb]
    simp [exec, execPutString, ht, appends, effectiveString, terminator]
  case shiftDisplay count direction =>
    have hd : ¬ 1 < direction.toNat := by
      have : direction.toNat < 2 := by simpa [wellFormed] using hw
      omega
    simp [exec, execShiftDisplay, checkDirection, hd, appends, shiftByte, dirRight]
  case setCursorStyle cursorOn blinkOn =>
    obtain ⟨hc, hb⟩ : cursorOn.toNat < 2 ∧ blinkOn.toNat < 2 := by simpa [wellFormed] using hw
    have : checkStyle cursorOn blinkOn = none := if_neg (by omega)
    simp only [exec, execSetCursorStyle, this, styleByte_eq hc hb, appends]
  all_goals rfl

/-- An ill-formed encoder operation is the shared one with its validation's code. -/
theorem exec_encoder_illFormed (i : Instr) (s : State) (h : isEncoder i = true)
    (hw : wellFormed i = false) :
    ∃ es, exec i s = s.encoderOp i (some (validationCode i)) es := by
  cases i <;> simp only [isEncoder, Bool.false_eq_true] at h <;> simp [wellFormed] at hw
  case setPosition column row =>
    have : checkRow row = some .invalidRow := if_pos (by omega)
    exact ⟨[.command (setAddressByte column row)],
      by simp only [exec, execSetPosition, this, validationCode]⟩
  case putString str =>
    have : checkTerminated str = some .unterminated := by
      simp only [checkTerminated, ite_eq_right_iff, reduceCtorEq, imp_false, List.any_eq_true,
        not_exists, not_and, beq_iff_eq]
      exact fun b hb h0 => hw b hb (by rw [h0]; rfl)
    exact ⟨_, by simp only [exec, execPutString, this, validationCode]; rfl⟩
  case shiftDisplay count direction =>
    have : checkDirection direction = some .invalidDirection := if_pos (by omega)
    exact ⟨_, by simp only [exec, execShiftDisplay, this, validationCode]; rfl⟩
  case setCursorStyle cursorOn blinkOn =>
    have : checkStyle cursorOn blinkOn = some .invalidParameter := if_pos (by omega)
    exact ⟨_, by simp only [exec, execSetCursorStyle, this, validationCode]; rfl⟩

/-! ## `Init` -/

/-- Outside `UNINIT`, `Init` returns the phase's code and does nothing else. -/
theorem execInit_gate (s : State) (hp : s.phase ≠ .uninit) :
    ∃ code, initGate s.phase = some code ∧
      exec .init s = .next (s.returns (.operation .init) code) := by
  cases h : s.phase with
  | uninit => exact absurd h hp
  | ready => exact ⟨_, rfl, by simp [exec, execInit, State.runInit, h, initGate]⟩
  | faulted => exact ⟨_, rfl, by simp [exec, execInit, State.runInit, h, initGate]⟩

/-- In `UNINIT`, `Init` is the set-up bytes after the bring-up, and its outcome is theirs. -/
theorem execInit_uninit (s : State) (hp : s.phase = .uninit) {r : Bool} {u : State}
    (h : State.setUp setupBytes s.bringUp.resetQueue = (r, u)) :
    exec .init s = .next (if r then (u.setPhase .ready).returns (.operation .init) .ok
      else u.returns (.operation .init) .hardwareFault) := by
  show Host.Outcome.next s.runInit = _
  unfold State.runInit
  rw [hp, h]
  rfl

end Sys2Proof.Machine
end

