-- ==== Sys2Proof/Laws/PerInstr.lean ====
section
/-! SUPPORT. One lemma per instruction: the word the encoder gives it lies in its own row of
spec/opcode_table.json, at the row's width, with the row's fixed bits. -/

namespace Sys2Proof.Laws.Table

/-- The width of a presented word's format (30_encoding.md rule R80). -/
def width : Presented → Nat
  | .host32 _ _ => 32
  | .entry16 _ => 16
  | .bus10 _ => 10
  | .nib6 _ => 6

/-- A presented word's bits. -/
def bits : Presented → BitVec 32
  | .host32 w _ => w
  | .entry16 w => w.setWidth 32
  | .bus10 w => w.setWidth 32
  | .nib6 w => w.setWidth 32

/-- A row of spec/opcode_table.json: the width of its format, its mask and its match. -/
structure Row where
  width : Nat
  mask : BitVec 32
  pattern : BitVec 32
deriving DecidableEq, Repr

/-- The row of each instruction, copied from spec/opcode_table.json. -/
def row : Instr → Row
  | .init => ⟨32, 0xFFFFFFFF, 0x00000000⟩
  | .update => ⟨32, 0xFFFFFFFF, 0x01000000⟩
  | .clear => ⟨32, 0xFFFFFFFF, 0x02000000⟩
  | .home => ⟨32, 0xFFFFFFFF, 0x03000000⟩
  | .setPosition _ _ => ⟨32, 0xFFFF0000, 0x04000000⟩
  | .putChar _ => ⟨32, 0xFFFFFF00, 0x05000000⟩
  | .putString _ => ⟨32, 0xFFFFFFFF, 0x06000000⟩
  | .shiftDisplay _ _ => ⟨32, 0xFFFF0000, 0x07000000⟩
  | .setCursorStyle _ _ => ⟨32, 0xFFFF0000, 0x08000000⟩
  | .command _ => ⟨16, 0xFF00, 0x0000⟩
  | .data _ => ⟨16, 0xFF00, 0x0100⟩
  | .clearDisplay => ⟨10, 0x3FF, 0x001⟩
  | .returnHome => ⟨10, 0x3FF, 0x002⟩
  | .displayControl _ _ => ⟨10, 0x3FC, 0x00C⟩
  | .displayShift _ => ⟨10, 0x3FB, 0x018⟩
  | .functionSet => ⟨10, 0x3FF, 0x028⟩
  | .setDdramAddress _ => ⟨10, 0x380, 0x080⟩
  | .writeData _ => ⟨10, 0x300, 0x200⟩
  | .readStatus _ _ => ⟨10, 0x300, 0x100⟩
  | .bringUp0011 => ⟨6, 0x3F, 0x03⟩
  | .bringUp0010 => ⟨6, 0x3F, 0x02⟩

/-- The encoding of the instruction has its row's width and fixed bits. -/
def Statement (i : Instr) : Prop :=
  width (encode i) = (row i).width ∧ bits (encode i) &&& (row i).mask = (row i).pattern

/-- A host word masked byte by byte. -/
theorem hostWord_and (op b a op' b' a' m : Byte) :
    hostWord op b a &&& (op' ++ m ++ b' ++ a' : BitVec (8 + 8 + 8 + 8)) =
      (op &&& op') ++ ((0x00 : Byte) &&& m) ++ (b &&& b') ++ (a &&& a') := by
  unfold hostWord
  rw [← BitVec.and_append, ← BitVec.and_append, ← BitVec.and_append]

/-- The full mask keeps a byte. -/
theorem byte_and_full (b : Byte) : b &&& 0xFF#8 = b := by revert b; decide

/-- The masked host word with both argument fields free. -/
theorem hostWord_mask_both (op b a : Byte) :
    hostWord op b a &&& 0xFFFF0000 = op ++ (0x00 : Byte) ++ (0x00 : Byte) ++ (0x00 : Byte) := by
  simpa [byte_and_full] using hostWord_and op b a 0xFF 0x00 0x00 0xFF

/-- The masked host word with the argument field `A` free. -/
theorem hostWord_mask_a (op b a : Byte) :
    hostWord op b a &&& 0xFFFFFF00 = op ++ (0x00 : Byte) ++ b ++ (0x00 : Byte) := by
  simpa [byte_and_full] using hostWord_and op b a 0xFF 0xFF 0x00 0xFF

theorem init : Statement .init := by unfold Statement; decide
theorem update : Statement .update := by unfold Statement; decide
theorem clear : Statement .clear := by unfold Statement; decide
theorem home : Statement .home := by unfold Statement; decide

theorem setPosition (column row : Byte) : Statement (.setPosition column row) :=
  ⟨rfl, hostWord_mask_both 0x04 row column⟩

theorem putChar (c : Byte) : Statement (.putChar c) := ⟨rfl, hostWord_mask_a 0x05 0 c⟩

theorem putString (s : List Byte) : Statement (.putString s) := by
  refine ⟨rfl, ?_⟩
  show hostWord 0x06 0 0 &&& 0xFFFFFFFF = (0x06000000 : BitVec 32)
  decide

theorem shiftDisplay (count direction : Byte) : Statement (.shiftDisplay count direction) :=
  ⟨rfl, hostWord_mask_both 0x07 direction count⟩

theorem setCursorStyle (cursorOn blinkOn : Byte) : Statement (.setCursorStyle cursorOn blinkOn) :=
  ⟨rfl, hostWord_mask_both 0x08 blinkOn cursorOn⟩

theorem command (payload : Byte) : Statement (.command payload) := by
  unfold Statement; revert payload; decide

theorem data (payload : Byte) : Statement (.data payload) := by
  unfold Statement; revert payload; decide

theorem clearDisplay : Statement .clearDisplay := by unfold Statement; decide
theorem returnHome : Statement .returnHome := by unfold Statement; decide

theorem displayControl (cursor blink : Bool) : Statement (.displayControl cursor blink) := by
  unfold Statement; revert cursor blink; decide

theorem displayShift (right : Bool) : Statement (.displayShift right) := by
  unfold Statement; revert right; decide

theorem functionSet : Statement .functionSet := by unfold Statement; decide

theorem setDdramAddress (address : BitVec 7) : Statement (.setDdramAddress address) := by
  unfold Statement; revert address; decide

theorem writeData (c : Byte) : Statement (.writeData c) := by
  unfold Statement; revert c; decide

theorem readStatus (busy : Bool) (unused : BitVec 7) : Statement (.readStatus busy unused) := by
  unfold Statement; revert busy unused; decide

theorem bringUp0011 : Statement .bringUp0011 := by unfold Statement; decide
theorem bringUp0010 : Statement .bringUp0010 := by unfold Statement; decide

end Sys2Proof.Laws.Table
end

