-- ==== Sys2Proof/Tests/Slice0.lean ====
section
/-! SUPPORT. Small tests: the vectors of 95_test_vectors.md, one word of each encoding written out from
its table, an ill-formed term for each check, and a witness for the hypotheses of each statement. -/

namespace Sys2Proof.Tests

open Sys2Proof Sys2Proof.Machine

/-! ## Helpers -/

/-- Four slots and short delays, as in 95_test_vectors.md P2. -/
def params : Params := ⟨4, 50, 3, 2, 1, 0, 2⟩

/-- A `READY` instance with an empty queue. -/
def ready : State := ⟨params, .ready, [], 0, 0, Bus.unset, [], [], [], [], 0⟩

/-- Before `Init`, with the device's answers given. -/
def fresh (device : List Nibble) : State := { ready with phase := .uninit, device := device }

/-- A `READY` instance with the given words in slots 0 on, and the device's answers. -/
def holding (ws : List EntryWord) (device : List Nibble) : State :=
  { ready with slots := ws.zipIdx.map fun p => (p.2, p.1), count := ws.length, device := device }

/-- A full queue. -/
def full : State := holding [0x0001, 0x0001, 0x0001, 0x0001] []

/-- `FAULTED`, constructed (V86). -/
def faulted : State := { ready with phase := .faulted }

/-- The state after an outcome, if it is one. -/
def next? : Host.Outcome State Fault Refusal → Option State
  | .next t => some t
  | .fault _ => none
  | .refused _ => none

/-- The queue after an instruction. -/
def queueAfter (i : Instr) (s : State) : Option (List (Option Entry)) :=
  (next? (exec i s)).map State.queue

/-- The events an instruction leaves in the trace. -/
def traceAfter (i : Instr) (s : State) : Option (List BusEvent) := (next? (exec i s)).map State.trace

/-- The numbers of the codes returned. -/
def codesAfter (i : Instr) (s : State) : Option (List Byte) :=
  (next? (exec i s)).map fun t => t.results.map fun r => r.code.value

/-- `W(rs, v)` of 30_encoding.md rule R98, written out. -/
def w (rs : Bool) (v : Nibble) : List BusEvent :=
  [.setRS rs, .setRW false, .dirOut, .writeNibble v, .pulseEnable]

/-- `ST(h, l)` of rule R98, written out. -/
def st (h l : Nibble) : List BusEvent :=
  [.dirIn, .setRS false, .setRW true, .pulseEnable, .readNibble h, .pulseEnable, .readNibble l]

/-! ## Well-formedness: a term each check refuses -/

theorem test_row_two_is_ill_formed : wellFormed (.setPosition 0 2) = false := by decide
theorem test_row_one_is_well_formed : wellFormed (.setPosition 0xFF 1) = true := by decide
theorem test_direction_two_is_ill_formed : wellFormed (.shiftDisplay 0 2) = false := by decide
theorem test_cursor_two_is_ill_formed : wellFormed (.setCursorStyle 2 0) = false := by decide
theorem test_blink_two_is_ill_formed : wellFormed (.setCursorStyle 0 2) = false := by decide
theorem test_unterminated_is_ill_formed : wellFormed (.putString [0x41, 0x42]) = false := by decide
theorem test_terminated_is_well_formed : wellFormed (.putString [0x41, 0x00, 0x42]) = true := by decide
theorem test_operand_beside_clear_is_ill_formed :
    wellFormedPresented (.host32 0x02000000 [0x00]) = false := by decide

/-! ## Decoding: a word of each encoding, written out -/

/-- V1 to V4. -/
theorem test_decode_plain :
    decode (.host32 0x00000000 []) = .ok .init ∧ decode (.host32 0x01000000 []) = .ok .update ∧
    decode (.host32 0x02000000 []) = .ok .clear ∧ decode (.host32 0x03000000 []) = .ok .home := by
  decide

/-- V5, V6: `OP = 0000_0100`, `RSV`, `B` the row, `A` the column. -/
theorem test_decode_setPosition :
    decode (.host32 0b00000100_00000000_00000001_00000011 []) = .ok (.setPosition 3 1) ∧
    decode (.host32 0x0400FF03 []) = .ok (.setPosition 3 0xFF) := by decide

/-- V7. -/
theorem test_decode_putChar : decode (.host32 0x05000031 []) = .ok (.putChar 0x31) := by decide

/-- V8, with the operand of E2. -/
theorem test_decode_putString :
    decode (.host32 0x06000000 [0x41, 0x42, 0x00]) = .ok (.putString [0x41, 0x42, 0x00]) := by decide

/-- V9. -/
theorem test_decode_shiftDisplay :
    decode (.host32 0x07000103 []) = .ok (.shiftDisplay 3 1) := by decide

/-- V11, and the two fields apart (P3 step 2). -/
theorem test_decode_setCursorStyle :
    decode (.host32 0x08000002 []) = .ok (.setCursorStyle 2 0) ∧
    decode (.host32 0x08000100 []) = .ok (.setCursorStyle 0 1) := by decide

/-- V12, V13, V14, V18. -/
theorem test_decode_illegal :
    decode (.host32 0x09000000 []) = .error .illegalOperation ∧
    decode (.host32 0xFF000000 []) = .error .illegalOperation ∧
    decode (.host32 0x01010000 []) = .error .illegalOperation ∧
    decode (.host32 0x00000100 []) = .error .illegalOperation := by decide

/-- V15, V16, V17. -/
theorem test_decode_illegal_arguments :
    decode (.host32 0x02000001 []) = .error .illegalOperation ∧
    decode (.host32 0x05010031 []) = .error .illegalOperation ∧
    decode (.host32 0x06000041 []) = .error .illegalOperation := by decide

/-- Section 2.2: `encode(C(bb)) = 0x00bb`, `encode(D(bb)) = 0x01bb`, `0x0242` is illegal. -/
theorem test_decode_entries :
    decode (.entry16 0x00C3) = .ok (.command 0xC3) ∧ decode (.entry16 0x0141) = .ok (.data 0x41) ∧
    decode (.entry16 0x0242) = .error .illegalTag := by decide

/-- R91, R92: RS, RW, then D7..D0. -/
theorem test_decode_bus_commands :
    decode (.bus10 0b0_0_00000001) = .ok .clearDisplay ∧
    decode (.bus10 0b0_0_00000010) = .ok .returnHome ∧
    decode (.bus10 0b0_0_00001110) = .ok (.displayControl true false) ∧
    decode (.bus10 0b0_0_00001101) = .ok (.displayControl false true) ∧
    decode (.bus10 0b0_0_00011100) = .ok (.displayShift true) ∧
    decode (.bus10 0b0_0_00011000) = .ok (.displayShift false) ∧
    decode (.bus10 0b0_0_00101000) = .ok .functionSet ∧
    decode (.bus10 0b0_0_11000011) = .ok (.setDdramAddress 0x43) := by decide

/-- R89, R90. -/
theorem test_decode_bus_data :
    decode (.bus10 0b1_0_01000001) = .ok (.writeData 0x41) ∧
    decode (.bus10 0b0_1_10000001) = .ok (.readStatus true 1) := by decide

/-- R94: no display-control byte with the display bit clear, no cursor shift, no entry mode, no
read of data. -/
theorem test_decode_bus_illegal : ∀ x ∈ ([0b0_0_00001000, 0b0_0_00010000, 0b0_0_00000110,
    0b0_0_00000000, 0b1_1_00000000] : List BusWord), decode (.bus10 x) = .error .noTransfer := by decide

/-- R93. -/
theorem test_decode_nibbles :
    decode (.nib6 0b0_0_0011) = .ok .bringUp0011 ∧ decode (.nib6 0b0_0_0010) = .ok .bringUp0010 ∧
    decode (.nib6 0b1_0_0011) = .error .noBringUpNibble := by decide

/-- Words as the opcode table numbers them. -/
theorem test_table_words :
    decodeTableWord 32 0x04000103 = some (.setPosition 3 1) ∧
    decodeTableWord 32 0x06000000 = some (.putString [0x00]) ∧
    decodeTableWord 16 0x00C3 = some (.setDdramAddress 0x43) ∧
    decodeTableWord 16 0x0000 = some (.command 0) ∧
    decodeTableWord 10 0x200 = some (.writeData 0) ∧
    decodeTableWord 8 0x03 = some .bringUp0011 := by decide

/-- The word placed is the one the next step runs: `Clear` (V32). -/
theorem test_withFetchWord_is_run :
    (next? (step (ready.withFetchWord 32 0x02000000))).map State.queue =
      some [some (.command 0x01)] := by decide

/-! ## The queue (section 2.2) -/

/-- V22: the tail wraps from slot 3 to slot 0. -/
theorem test_enqueue_wraps :
    ((State.enqueueEach [.data 0x58, .data 0x59] { ready with head := 3 }).toOption).map State.slots =
      some [(0, 0x0159), (3, 0x0158)] := by decide

/-- V25, V27: a full queue takes nothing but nothing. -/
theorem test_enqueue_full :
    (full.enqueue (.command 0x02)).toOption.isNone = true ∧
    (full.enqueueAll []).toOption = some full := by decide

/-- V24: dequeuing an empty queue gives nothing. -/
theorem test_dequeue_empty : (ready.dequeue).toOption = some none := by decide

/-! ## Encoder operations (sections 2.3, 2.6) -/

/-- V32, V85. -/
theorem test_clear : queueAfter .clear ready = some [some (.command 0x01)] ∧
    codesAfter .clear full = some [0x04] := by decide

/-- V33. -/
theorem test_home : queueAfter .home ready = some [some (.command 0x02)] := by decide

/-- E7, V42: the sum wraps at 128. -/
theorem test_setPosition :
    queueAfter (.setPosition 3 1) ready = some [some (.command 0xC3)] ∧
    queueAfter (.setPosition 0xFF 1) ready = some [some (.command 0xBF)] := by decide

/-- V81, V78: the row is checked before the room, the phase before the row. -/
theorem test_setPosition_checks :
    codesAfter (.setPosition 0 2) full = some [0x01] ∧
    codesAfter (.setPosition 0 2) (fresh []) = some [0x07] := by decide

/-- V45, V46. -/
theorem test_putChar :
    queueAfter (.putChar 0x00) ready = some [some (.data 0x00)] ∧
    queueAfter (.putChar 0xFF) ready = some [some (.data 0xFF)] := by decide

/-- V47, V48: bytes after the terminator are ignored; the empty string fits in a full queue. -/
theorem test_putString :
    queueAfter (.putString [0x41, 0x00, 0x42, 0x00]) ready = some [some (.data 0x41)] ∧
    codesAfter (.putString [0x00]) full = some [0x00] := by decide

/-- V84, P2 step 2: unterminated before full; no partial append. -/
theorem test_putString_checks :
    codesAfter (.putString [0x41]) full = some [0x09] ∧
    queueAfter (.putString [0x58, 0x59, 0x00]) (holding [0x001C, 0x001C, 0x001C] []) =
      some [some (.command 0x1C), some (.command 0x1C), some (.command 0x1C)] := by decide

/-- V50, V51. -/
theorem test_shiftDisplay :
    queueAfter (.shiftDisplay 3 1) ready =
      some [some (.command 0x1C), some (.command 0x1C), some (.command 0x1C)] ∧
    queueAfter (.shiftDisplay 1 0) ready = some [some (.command 0x18)] := by decide

/-- V53, and a count above the capacity (V55 at four slots). -/
theorem test_shiftDisplay_checks :
    codesAfter (.shiftDisplay 0 2) ready = some [0x02] ∧
    codesAfter (.shiftDisplay 5 1) ready = some [0x04] := by decide

/-- V58, V59. -/
theorem test_setCursorStyle :
    queueAfter (.setCursorStyle 0 1) ready = some [some (.command 0x0D)] ∧
    queueAfter (.setCursorStyle 1 0) ready = some [some (.command 0x0E)] := by decide

/-- V61, V62. -/
theorem test_setCursorStyle_checks :
    codesAfter (.setCursorStyle 2 0) ready = some [0x03] ∧
    codesAfter (.setCursorStyle 0 2) ready = some [0x03] := by decide

/-! ## The scheduler and initialization (sections 2.4 to 2.6) -/

/-- V67: the busy flag is bit 7 alone; high nibble first, RS high for data. -/
theorem test_update_sends :
    traceAfter .update (holding [0x0141] [0x7, 0xF]) =
      some (st 0x7 0xF ++ w true 0x4 ++ w true 0x1) := by decide

/-- V65, V88. -/
theorem test_update_busy_and_illegal :
    traceAfter .update (holding [0x0141] [0x8, 0x0]) = some (st 0x8 0x0) ∧
    codesAfter .update (holding [0x0242] [0x0, 0x0]) = some [0x05] := by decide

/-- V71. -/
theorem test_init_ready :
    traceAfter .init (fresh [0, 0, 0, 0, 0, 0]) =
      some ([.delay 50] ++ w false 3 ++ [.delay 3] ++ w false 3 ++ [.delay 2] ++ w false 3 ++
        [.delay 1] ++ w false 2 ++ w false 2 ++ w false 8 ++ st 0 0 ++ w false 0 ++ w false 0xF ++
        st 0 0 ++ w false 0 ++ w false 1 ++ st 0 0) := by decide

/-- V73 with a limit of two, V75: `HardwareFault` after 48 events; `AlreadyInitialized`. -/
theorem test_init_codes :
    codesAfter .init (fresh [8, 0, 8, 0]) = some [0x06] ∧
    (traceAfter .init (fresh [8, 0, 8, 0])).map List.length = some 48 ∧
    codesAfter .init ready = some [0x08] := by decide

/-! ## Entries and transfers: the event groups of R171, R172 -/

theorem test_entries :
    traceAfter (.command 0xC3) ready = some (w false 0xC ++ w false 0x3) ∧
    traceAfter (.data 0xA5) ready = some (w true 0xA ++ w true 0x5) := by decide

theorem test_transfers :
    traceAfter .clearDisplay ready = some (w false 0x0 ++ w false 0x1) ∧
    traceAfter .returnHome ready = some (w false 0x0 ++ w false 0x2) ∧
    traceAfter (.displayControl true false) ready = some (w false 0x0 ++ w false 0xE) ∧
    traceAfter (.displayShift true) ready = some (w false 0x1 ++ w false 0xC) ∧
    traceAfter .functionSet ready = some (w false 0x2 ++ w false 0x8) ∧
    traceAfter (.setDdramAddress 0x43) ready = some (w false 0xC ++ w false 0x3) ∧
    traceAfter (.writeData 0x31) ready = some (w true 0x3 ++ w true 0x1) := by decide

theorem test_status_and_bring_up :
    traceAfter (.readStatus true 1) ready = some (st 0x8 0x1) ∧
    traceAfter .bringUp0011 ready = some (w false 0x3) ∧
    traceAfter .bringUp0010 ready = some (w false 0x2) := by decide

/-! ## Witnesses: states and operands that meet the hypotheses of the statements -/

theorem witness_StepRunsTheDecodedWord :
    ({ ready with presented := [.host32 0x01000000 []] } : State).presented =
      .host32 0x01000000 [] :: [] ∧
    decode (.host32 0x01000000 []) = .ok .update := by decide

theorem witness_StepWaitsForTheHost : ready.presented = [] := by decide

theorem witness_IllegalHostWordReturnsItsCode :
    ({ ready with presented := [.host32 0x09000000 [0x41]] } : State).presented =
      .host32 0x09000000 [0x41] :: [] ∧
    decode (.host32 0x09000000 [0x41]) = .error .illegalOperation := by decide

theorem witness_OtherWordsWithoutMeaningAreRefused :
    (({ ready with presented := [.entry16 0x0200] } : State).presented = .entry16 0x0200 :: [] ∧
      decodeEntry 0x0200 = none) ∧
    (({ ready with presented := [.bus10 0x300] } : State).presented = .bus10 0x300 :: [] ∧
      decodeBus 0x300 = none) ∧
    (({ ready with presented := [.nib6 0x04] } : State).presented = .nib6 0x04 :: [] ∧
      decodeNibble 0x04 = none) := by decide

/-- The clauses at their boundaries: `OP` 8 and 9, `RSV` 1, an argument 1, and legal words between. -/
theorem witness_HostWordIllegalExactlyWhenReserved :
    decode (.host32 0x0800FFFF []) = .ok (.setCursorStyle 0xFF 0xFF) ∧
    decode (.host32 0x09000000 []) = .error .illegalOperation ∧
    decode (.host32 0x04010000 []) = .error .illegalOperation ∧
    decode (.host32 0x03000001 []) = .error .illegalOperation ∧
    decode (.host32 0x050000FF []) = .ok (.putChar 0xFF) ∧
    decode (.host32 0x05000100 []) = .error .illegalOperation := by decide

theorem witness_StorageWordsEncodeEntriesByTag :
    (0x00FF : EntryWord).toNat / 256 = 0 ∧ (0x0100 : EntryWord).toNat / 256 = 1 ∧
    (0x01FF : EntryWord).toNat / 256 = 1 ∧ 1 < (0x0200 : EntryWord).toNat / 256 ∧
    1 < (0xFFFF : EntryWord).toNat / 256 := by decide

theorem witness_EncodeOfDecode :
    (wellFormedPresented (.host32 0x06000000 [0x41, 0x00]) = true ∧
      decode (.host32 0x06000000 [0x41, 0x00]) = .ok (.putString [0x41, 0x00])) ∧
    (wellFormedPresented (.host32 0x07000103 []) = true ∧
      decode (.host32 0x07000103 []) = .ok (.shiftDisplay 3 1)) := by decide

theorem witness_ResetStateAsSpecified : isHostOp .init = true ∧ (fresh []).phase = .uninit := by
  decide

/-- Each clause at its boundary: full and one slot left; empty and one entry held. -/
theorem witness_QueuePrimitives :
    full.count = full.params.qcap ∧
    (holding [0x001C, 0x001C, 0x001C] []).count < (holding [0x001C, 0x001C, 0x001C] []).params.qcap ∧
    ready.count = 0 ∧
    (let s := holding [0x0141] [];
      0 < s.count ∧ s.head < s.params.qcap ∧ s.slots.read s.head = 0x0141) ∧
    full.count ≤ full.params.qcap ∧ full.params.qcap - full.count < [Entry.data 0x58].length ∧
    ([] : List Entry).length ≤ full.params.qcap - full.count := by decide

/-- The premises of `EncoderContract`, in each phase and with room and without, at both sides of the
boundary: three entries held, one and two to append, and a full queue. -/
theorem witness_EncoderContract :
    (faulted.params.Ok ∧ faulted.count ≤ faulted.params.qcap ∧ faulted.phase = .faulted) ∧
    ((fresh []).params.Ok ∧ (fresh []).count ≤ (fresh []).params.qcap ∧
      (fresh []).phase = .uninit) ∧
    (full.params.Ok ∧ full.count ≤ full.params.qcap ∧ full.phase = .ready ∧
      full.params.qcap - full.count < [Entry.command 0x01].length) ∧
    (let s := holding [0x001C, 0x001C, 0x001C] [];
      s.params.Ok ∧ s.count ≤ s.params.qcap ∧ s.phase = .ready ∧
      [Entry.command 0x01].length ≤ s.params.qcap - s.count ∧
      s.params.qcap - s.count < [Entry.data 0x58, .data 0x59].length) := by decide

/-- The operands of the seven encoder statements: the first row, direction and flags refused, a string
with a terminator and one without. -/
theorem witness_encoder_operands :
    1 < (2 : Byte).toNat ∧ 1 < (0xFF : Byte).toNat ∧ (0x00 : Byte) ∉ ([0x41, 0x42] : List Byte) ∧
    (0x00 : Byte) ∉ ([] : List Byte) := by decide

theorem witness_SetPositionAddressArithmetic :
    ((1 : Byte).toNat < 2 ∧ (0x3F : Byte).toNat ≤ 0x3F) ∧ (0 : Byte).toNat < 2 := by decide

/-- Each cause of R234 is met by some operation and state. -/
theorem witness_EncodersReportTheFirstCause :
    isEncoder (.setPosition 0 2) = true ∧ full.count ≤ full.params.qcap ∧
    firstCause (.setPosition 0 2) faulted = .protocolFault ∧
    firstCause (.setPosition 0 2) (fresh []) = .notInitialized ∧
    firstCause (.setPosition 0 2) full = .invalidRow ∧
    firstCause .clear full = .queueFull ∧ firstCause .clear ready = .ok := by decide

theorem witness_encoder_statements : isEncoder .clear = true ∧ isEncoder (.putString [0x00]) = true ∧
    (next? (exec .clear full)).map State.results = some (full.results ++ [⟨.operation .clear, .queueFull⟩]) ∧
    (next? (exec (.shiftDisplay 2 1) ready)).isSome = true := by decide

theorem witness_EncodersDependOnPhaseRoomAndOperands :
    (let s := holding [0x001C, 0x001C, 0x001C] [];
      let s' := holding [0x0141] [];
      s.params.Ok ∧ s'.params.Ok ∧ s.count ≤ s.params.qcap ∧ s'.count ≤ s'.params.qcap ∧
      s.phase = s'.phase ∧
      (s.params.qcap - s.count < (appends .clear).length ↔
        s'.params.qcap - s'.count < (appends .clear).length)) := by decide

theorem witness_UpdateOnEmptyQueueDoesNothing : ready.phase = .ready ∧ ready.count = 0 := by decide

theorem witness_UpdateWhileBusyOnlyReadsStatus :
    (let s := holding [0x0141] [0x8, 0x0];
      s.phase = .ready ∧ 0 < s.count ∧ busy (s.statusAnswer 0) = true) := by decide

/-- Also the hypotheses of `UpdateIsItsMicroInstructions`; the status byte is 0x7F, not busy. -/
theorem witness_UpdateSendsTheHeadEntry :
    (let s := holding [0x00C3, 0x0131] [0x7, 0xF];
      s.phase = .ready ∧ s.head < s.params.qcap ∧
      s.queue = some (.command 0xC3) :: [some (.data 0x31)] ∧
      busy (s.statusAnswer 0) = false) := by decide

theorem witness_UpdateFaultsOnIllegalTag :
    (let s := holding [0x0200] [0x0, 0x0];
      s.phase = .ready ∧ 0 < s.count ∧ s.head < s.params.qcap ∧ s.slots.read s.head = 0x0200 ∧
      1 < (0x0200 : EntryWord).toNat / 256 ∧ busy (s.statusAnswer 0) = false) := by decide

/-- Each clause at its boundary: `QCAP - 1` and `QCAP`, as an index and as the head, the slot unwritten. -/
theorem witness_UpdateStopsWhereNoSlotIsReadable :
    (let s : State := { ready with head := 4, count := 1, device := [0, 0] };
      s.phase = .ready ∧ 0 < s.count ∧ busy (s.statusAnswer 0) = false ∧ s.params.qcap ≤ s.head) ∧
    (let s : State := { ready with head := 3, count := 1, device := [0, 0] };
      s.phase = .ready ∧ 0 < s.count ∧ busy (s.statusAnswer 0) = false ∧
      s.head < s.params.qcap) ∧
    3 < ready.params.qcap ∧ ready.params.qcap ≤ 4 := by decide

/-- An `Update` that answers a next state, and one that writes. -/
theorem witness_update_next :
    (next? (exec .update (holding [0x0141] [0x7, 0xF]))).map State.trace =
      some ((holding [0x0141] [0x7, 0xF]).trace ++ (st 0x7 0xF ++ w true 0x4 ++ w true 0x1)) ∧
    BusEvent.writeNibble 0x4 ∈ st 0x7 0xF ++ w true 0x4 ++ w true 0x1 := by decide

theorem witness_ReadyDeviceDrainsInOrder :
    (let s := holding [0x00C3, 0x0131] [0x0, 0x0, 0x7, 0xF];
      s.phase = .ready ∧ s.head < s.params.qcap ∧
      s.queue = [Entry.command 0xC3, .data 0x31].map some ∧
      ∀ k < [Entry.command 0xC3, .data 0x31].length, busy (s.statusAnswer k) = false) := by decide

/-- Busy once after the function set, once after the second byte, never after the third, the limit
being two. -/
theorem witness_InitSucceedsWhenTheDeviceBecomesReady :
    (let s := fresh [8, 0, 0, 0, 8, 0, 0, 0, 0, 0];
      s.phase = .uninit ∧ 1 < s.params.initPollLimit ∧ 1 < s.params.initPollLimit ∧
      0 < s.params.initPollLimit ∧
      ∀ n < 1 + 1 + 0 + 3,
        (busy (s.statusAnswer n) = false ↔ n = 1 ∨ n = 1 + 1 + 1 ∨ n = 1 + 1 + 0 + 2)) := by decide

theorem witness_InitFailsOnADeviceThatStaysBusy :
    (let s := fresh [8, 0, 0xF, 0xF];
      s.phase = .uninit ∧ ∀ n < s.params.initPollLimit, busy (s.statusAnswer n) = true) := by decide

/-- Ready at once, then busy for good; ready at once twice, then busy for good; the limit is two. -/
theorem witness_InitFailsAtALaterPoll :
    (let s := fresh [0, 0, 8, 0, 8, 0];
      s.phase = .uninit ∧ 0 < s.params.initPollLimit ∧
      ∀ n < 0 + 1 + s.params.initPollLimit, (busy (s.statusAnswer n) = false ↔ n = 0)) ∧
    (let s := fresh [0, 0, 0, 0, 8, 0, 8, 0];
      s.phase = .uninit ∧ 0 < s.params.initPollLimit ∧ 0 < s.params.initPollLimit ∧
      ∀ n < 0 + 0 + 2 + s.params.initPollLimit,
        (busy (s.statusAnswer n) = false ↔ n = 0 ∨ n = 0 + 0 + 1)) := by decide

theorem witness_InitEndsInOneOfTwoOutcomes : (fresh []).phase = .uninit := by decide

/-- In `UNINIT` and outside it. -/
theorem witness_InitFrame : (next? (exec .init (fresh [8, 0, 8, 0]))).isSome = true ∧
    (next? (exec .init ready)).isSome = true ∧ ready.phase ≠ .uninit := by decide

theorem witness_TransfersSendTheirOwnWord :
    decode (.bus10 (busWord false false 0xC3)) = .ok (.setDdramAddress 0x43) ∧
    decode (.bus10 (busWord true false 0x31)) = .ok (.writeData 0x31) := by decide

theorem witness_TransferFrame : isHostOp .functionSet = false ∧
    (next? (exec .functionSet ready)).isSome = true := by decide

theorem witness_AppendedEntriesAreTableTransfers :
    isEncoder (.shiftDisplay 2 1) = true ∧ wellFormed (.shiftDisplay 2 1) = true ∧
    Entry.command 0x1C ∈ appends (.shiftDisplay 2 1) := by decide

theorem witness_HostOperationsReturnOneOfTheirCodes : isHostOp .update = true ∧
    (next? (exec .update ready)).isSome = true := by decide

/-- `InvalidRow` on a full queue. -/
theorem witness_ErrorsArePrecise : isHostOp (.setPosition 0 2) = true ∧
    (next? (exec (.setPosition 0 2) full)).map State.results =
      some (full.results ++ [⟨.operation (.setPosition 0 2), .invalidRow⟩]) ∧
    ResultCode.invalidRow ≠ .ok ∧ ResultCode.invalidRow ≠ .hardwareFault ∧
    ¬ (Instr.setPosition 0 2 = .update ∧ full.phase = .ready) := by decide

theorem witness_LifeCycle : isHostOp .clear = true ∧ Instr.clear ≠ .init ∧
    (fresh []).phase = .uninit ∧ ready.phase = .ready ∧ faulted.phase = .faulted ∧
    isHostOp .init = true ∧ (next? (exec .clear ready)).isSome = true := by decide

theorem witness_FaultedIsSticky : isHostOp .init = true ∧ faulted.phase = .faulted ∧
    (next? (step { faulted with presented := [.host32 0x00000000 []] })).isSome = true := by decide

theorem witness_EntriesAreNeverMutated : isHostOp .update = true ∧
    (holding [0x0141] [0, 0]).params.Ok ∧
    (holding [0x0141] [0, 0]).count ≤ (holding [0x0141] [0, 0]).params.qcap ∧
    (next? (exec .update (holding [0x0141] [0, 0]))).isSome = true := by decide

/-- A sound state: one data entry held, the device ready, `Update` presented. -/
def sound : State := { holding [0x0141] [0, 0] with presented := [.host32 0x01000000 []] }

/-- The same view with the ring at the last slot. -/
def soundMoved : State := { sound with slots := [(3, 0x0141)], head := 3 }

theorem witness_sound : sound.Inv := by
  constructor <;> decide

theorem witness_RingPlacementIsUnobservable : sound.Inv ∧ soundMoved.Inv ∧ SameView sound soundMoved :=
  ⟨witness_sound, by constructor <;> decide, by constructor <;> decide⟩

theorem witness_StepKeepsSoundStates : sound.Inv ∧ (next? (step sound)).isSome = true :=
  ⟨witness_sound, by decide⟩

theorem witness_SoundStatesNeverFault : sound.Inv := witness_sound

/-- Both results of a call of each kind: accepted, refused, taken, and the queue found empty. -/
theorem witness_FifoLaw : sound.Inv ∧ ready.Inv ∧ ready.queue = [] ∧
    (queueRun [.dequeue, .enqueueAll [.command 0x01, .data 0x41], .dequeue,
      .enqueueAll (List.replicate 4 (.data 0x42))] ready).taken = [some (.command 0x01)] :=
  ⟨witness_sound, by constructor <;> decide, by decide, by decide⟩

theorem witness_StepKeepsLatchesAndDirection :
    sound.BusInv ∧ (next? (step sound)).isSome = true := ⟨⟨by decide, by decide⟩, by decide⟩

theorem witness_ObservationsAreIrrevocable : (next? (step sound)).isSome = true := by decide

theorem witness_WellFormedUseStaysGood : sound.Inv ∧ sound.good = true ∧ sound.phase = .ready ∧
    isHostOp .update = true ∧ Instr.update ≠ .init ∧ wellFormed .update = true ∧
    (next? (exec .update sound)).isSome = true :=
  ⟨witness_sound, by decide, by decide, by decide, by decide, by decide, by decide⟩

end Sys2Proof.Tests
end

/-! Proofs of the statements on the scope of the machine (00_scope.md): steps, entries run on their own,
`Update` as its micro-instructions, the storage space, reset, and what no step takes back. -/

namespace Sys2Proof.Machine

/-! ## Entries and the status transfer run on their own -/

/-- The micro-instruction of an entry sends the entry. -/
theorem exec_toInstr (e : Entry) (s : State) : exec e.toInstr s = .next (s.sendEntry e) := by
  cases e <;> rfl

@[simp] theorem State.sendEntry_trace (s : State) (e : Entry) :
    (s.sendEntry e).trace = s.trace ++ byteEvents e.rs e.payload := by
  rw [State.sendEntry_eq, State.sendByte_eq]

@[simp] theorem State.sendEntry_bus (s : State) (e : Entry) :
    (s.sendEntry e).bus = ⟨Level.ofBool e.rs, .low, .output, .nibble (lowNibble e.payload), .low⟩ := by
  rw [State.sendEntry_eq, State.sendByte_eq]

@[simp] theorem State.sendEntry_count (s : State) (e : Entry) : (s.sendEntry e).count = s.count := by
  rw [State.sendEntry_eq, State.sendByte_eq]

/-- A status byte is its busy flag and its seven other bits. -/
theorem busy_append_unused :
    ∀ status : Byte, (BitVec.ofBool (busy status) ++ status.extractLsb' 0 7 : Byte) = status := by
  decide

/-- The status transfer that carries a ready device's byte emits the status events of that byte. -/
theorem exec_readStatus_ready (s : State) {status : Byte} (h : busy status = false) :
    exec (.readStatus false (status.extractLsb' 0 7)) s =
      .next (State.emitAll (statusEvents status) s) := by
  have hbyte := busy_append_unused status
  rw [h] at hbyte
  show Host.Outcome.next (State.emitAll (statusEvents (_ ++ _)) s) = _
  rw [hbyte]

/-- Once its two answers are drawn, the status transfer run on its own leaves what the status read
inside `Update` leaves, here with the head entry removed. -/
theorem State.emitAll_statusEvents_drawn (s : State) :
    { (State.emitAll (statusEvents (s.statusAnswer 0)) s).dropHead with
      device := s.device.drop 2, draws := s.draws + 2 } = (s.afterReads 1).dropHead := by
  simp [State.emitAll_eq, State.dropHead, State.afterReads, State.statusReads, statusEvents,
    latchesAfter, BusEvent.latch, Level.ofBool]

/-! ## `Update` with an entry pending and the device ready -/

/-- The first word of the queue's list view is the one in the head's slot. -/
theorem State.queue_cons (s : State) {x : Option Entry} {rest : List (Option Entry)}
    (hh : s.head < s.params.qcap) (hq : s.queue = x :: rest) :
    0 < s.count ∧ decodeEntry (s.slots.read s.head) = x := by
  have hc : 0 < s.count := by
    rw [← s.queue_length, hq]
    exact Nat.succ_pos _
  have hslot : s.ringSlot 0 = s.head := Nat.mod_eq_of_lt hh
  have hfirst := s.queue_getElem? hc
  rw [hq, hslot] at hfirst
  exact ⟨hc, (Option.some.inj hfirst).symm⟩

/-- `transmit` of a legal word sends its entry and returns `OK`. -/
theorem State.transmit_legal (s : State) {w : EntryWord} {e : Entry} (h : decodeEntry w = some e) :
    s.transmit w = (s.sendEntry e).returns (.operation .update) .ok := by
  simp only [State.transmit, h]

/-- `transmit` of a word with an illegal tag writes nothing and leaves the ENGINE `FAULTED`. -/
theorem State.transmit_illegal (s : State) {w : EntryWord} (h : decodeEntry w = none) :
    s.transmit w = (s.setPhase .faulted).returns (.operation .update) .protocolFault := by
  simp only [State.transmit, h]

@[simp] theorem State.transmit_count (s : State) (w : EntryWord) : (s.transmit w).count = s.count := by
  cases h : decodeEntry w with
  | some e => simp [s.transmit_legal h]
  | none => simp [s.transmit_illegal h]

section Pending

variable {s : State} (hp : s.phase = .ready) (hc : 0 < s.count) (hb : busy (s.statusAnswer 0) = false)
include hp hc hb

/-- Here the answer of `Update` turns on the read of the head's slot alone. -/
theorem execUpdate_pending :
    (∃ f, s.memRead s.head = .error f ∧ exec .update s = .fault f) ∨
    (∃ w, s.memRead s.head = .ok w ∧
      exec .update s = .next ((s.afterReads 1).dropHead.transmit w)) := by
  rcases execUpdate_cases s with ⟨code, hg, _⟩ | ⟨_, h0, _⟩ | ⟨_, _, hbusy, _⟩ | ⟨_, _, _, hf⟩ |
    ⟨_, _, _, hw⟩
  · simp [hp, gate] at hg
  · omega
  · simp [hb] at hbusy
  · exact .inl hf
  · exact .inr hw

/-- With the head in range the head's word is taken and transmitted. -/
theorem execUpdate_head_inRange (hh : s.head < s.params.qcap) :
    exec .update s = .next ((s.afterReads 1).dropHead.transmit (s.slots.read s.head)) := by
  have hread := s.memRead_inRange hh
  rcases execUpdate_pending hp hc hb with ⟨f, hf, _⟩ | ⟨w, hw, hu⟩
  · simp [hread] at hf
  · rw [hread] at hw
    rw [hu, Except.ok.inj hw]

/-- With the head out of range `Update` stops. -/
theorem execUpdate_head_outOfRange (hh : s.params.qcap ≤ s.head) :
    exec .update s = .fault .noSuchSlot := by
  obtain ⟨hread, _⟩ := s.mem_outOfRange 0 hh
  rcases execUpdate_pending hp hc hb with ⟨f, hf, hu⟩ | ⟨w, hw, _⟩
  · rw [hread] at hf
    rw [hu, Except.error.inj hf]
  · simp [hread] at hw

end Pending

/-! ## What one operation keeps of the observation -/

/-- `u` is a state on the way of one operation from `s`, before its result is recorded: the
configuration and the results are those of `s`, the trace has only grown. -/
structure State.Progress (s u : State) : Prop where
  params : u.params = s.params
  results : u.results = s.results
  trace : s.trace <+: u.trace

theorem State.Progress.refl (s : State) : s.Progress s := ⟨rfl, rfl, List.prefix_rfl⟩

theorem State.Progress.trans {s t u : State} (h : s.Progress t) (h' : t.Progress u) : s.Progress u :=
  ⟨h'.params.trans h.params, h'.results.trans h.results, h.trace.trans h'.trace⟩

theorem State.progress_onBus (s : State) (evs : List BusEvent) (bus : Bus) (n : Nat) :
    s.Progress (s.onBus evs bus n) := ⟨rfl, rfl, List.prefix_append _ _⟩

theorem State.progress_emitAll (s : State) (evs : List BusEvent) :
    s.Progress (State.emitAll evs s) := by
  rw [State.emitAll_eq]
  exact ⟨rfl, rfl, List.prefix_append _ _⟩

theorem State.progress_sendEntry (s : State) (e : Entry) : s.Progress (s.sendEntry e) := by
  rw [State.sendEntry_eq, State.sendByte_onBus]
  exact s.progress_onBus _ _ _

theorem State.progress_appendAll (s : State) (es : List Entry) :
    s.Progress (State.appendAll es s) := by
  rw [State.appendAll_frame]
  exact ⟨rfl, rfl, List.prefix_rfl⟩

theorem State.progress_bringUp (s : State) : s.Progress s.bringUp := by
  rw [State.bringUp_eq]
  exact ⟨rfl, rfl, List.prefix_append _ _⟩

theorem State.progress_dropHead (s : State) : s.Progress s.dropHead := ⟨rfl, rfl, List.prefix_rfl⟩

theorem State.progress_resetQueue (s : State) : s.Progress s.resetQueue :=
  ⟨rfl, rfl, List.prefix_rfl⟩

theorem State.progress_setPhase (s : State) (p : Phase) : s.Progress (s.setPhase p) :=
  ⟨rfl, rfl, List.prefix_rfl⟩

theorem State.progress_setUp (bs : List Byte) (s : State) : s.Progress (State.setUp bs s).2 := by
  obtain ⟨evs, bus, n, _, hu⟩ := State.setUp_frame bs s
  rw [hu]
  exact s.progress_onBus evs bus n

/-- What `i` gives from `s` is a state on its way, with at most the result of `i` recorded. -/
def Recorded (i : Instr) (s t : State) : Prop :=
  ∃ u, s.Progress u ∧ (t = u ∨ ∃ code, t = u.returns (.operation i) code)

theorem State.Progress.recorded_returns {s u : State} (h : s.Progress u) (i : Instr)
    (code : ResultCode) : Recorded i s (u.returns (.operation i) code) :=
  ⟨u, h, .inr ⟨code, rfl⟩⟩

/-- An encoder operation returns a code and does nothing else, or appends entries and returns `OK`. -/
theorem exec_encoder_cases (i : Instr) (s : State) (h : isEncoder i = true) :
    (∃ code, exec i s = .next (s.returns (.operation i) code)) ∨
    exec i s = .next ((State.appendAll (appends i) s).returns (.operation i) .ok) := by
  cases hw : wellFormed i with
  | true =>
    rw [exec_encoder_wellFormed i s h hw]
    rcases s.encoderOp_cases i none (appends i) with ⟨code, hn, _⟩ | ⟨_, _, _, hn⟩
    · exact .inl ⟨code, hn⟩
    · exact .inr hn
  | false =>
    obtain ⟨es, hes⟩ := exec_encoder_illFormed i s h hw
    rw [hes]
    rcases s.encoderOp_cases i (some (validationCode i)) es with ⟨code, hn, _⟩ | ⟨_, hcheck, _⟩
    · exact .inl ⟨code, hn⟩
    · cases hcheck

theorem exec_encoder_recorded {i : Instr} {s t : State} (h : isEncoder i = true)
    (ht : exec i s = .next t) : Recorded i s t := by
  rcases exec_encoder_cases i s h with ⟨code, hn⟩ | hn <;> cases hn.symm.trans ht
  · exact (State.Progress.refl s).recorded_returns i code
  · exact (s.progress_appendAll (appends i)).recorded_returns i .ok

theorem exec_transfer_recorded {i : Instr} {s t : State} (h : isHostOp i = false)
    (ht : exec i s = .next t) : Recorded i s t := by
  obtain ⟨evs, hn, _⟩ := exec_transfer i s h
  cases hn.symm.trans ht
  exact ⟨_, s.progress_emitAll evs, .inl rfl⟩

theorem State.Progress.transmit_recorded {s u : State} (h : s.Progress u) (w : EntryWord) :
    Recorded .update s (u.transmit w) := by
  cases hw : decodeEntry w with
  | some e =>
    rw [u.transmit_legal hw]
    exact (h.trans (u.progress_sendEntry e)).recorded_returns _ _
  | none =>
    rw [u.transmit_illegal hw]
    exact (h.trans (u.progress_setPhase .faulted)).recorded_returns _ _

theorem execUpdate_recorded {s t : State} (ht : exec .update s = .next t) :
    Recorded .update s t := by
  have hreads : s.Progress (s.afterReads 1) := s.progress_onBus _ _ _
  rcases execUpdate_cases s with ⟨code, _, hn⟩ | ⟨_, _, hn⟩ | ⟨_, _, _, hn⟩ | ⟨_, _, _, f, _, hn⟩ |
    ⟨_, _, _, w, _, hn⟩ <;> cases hn.symm.trans ht
  · exact (State.Progress.refl s).recorded_returns _ code
  · exact (State.Progress.refl s).recorded_returns _ .ok
  · exact hreads.recorded_returns _ .ok
  · exact (hreads.trans (State.progress_dropHead _)).transmit_recorded w

theorem execInit_recorded {s t : State} (ht : exec .init s = .next t) : Recorded .init s t := by
  by_cases hp : s.phase = .uninit
  · have hprog := (s.progress_bringUp.trans s.bringUp.progress_resetQueue).trans
      (State.progress_setUp setupBytes _)
    cases hr : State.setUp setupBytes s.bringUp.resetQueue with | mk ready u
    rw [hr] at hprog
    cases (execInit_uninit s hp hr).symm.trans ht
    cases ready with
    | true => exact (hprog.trans (u.progress_setPhase .ready)).recorded_returns _ .ok
    | false => exact hprog.recorded_returns _ .hardwareFault
  · obtain ⟨code, _, hn⟩ := execInit_gate s hp
    cases hn.symm.trans ht
    exact (State.Progress.refl s).recorded_returns _ code

/-- A host operation is `Init`, `Update` or an encoder operation. -/
theorem isHostOp_cases {i : Instr} (h : isHostOp i = true) :
    i = .init ∨ i = .update ∨ isEncoder i = true := by
  cases i <;> simp_all [isHostOp, isEncoder]

theorem exec_recorded {i : Instr} {s t : State} (ht : exec i s = .next t) : Recorded i s t := by
  cases hi : isHostOp i with
  | false => exact exec_transfer_recorded hi ht
  | true =>
    rcases isHostOp_cases hi with rfl | rfl | he
    · exact execInit_recorded ht
    · exact execUpdate_recorded ht
    · exact exec_encoder_recorded he ht

/-- The claim of `ObservationsAreIrrevocable` about two states: the configuration kept, events and at
most one result added. -/
def ObservationExtends (s t : State) : Prop :=
  t.params = s.params ∧ (∃ evs, t.trace = s.trace ++ evs) ∧
    (∃ rs, t.results = s.results ++ rs ∧ rs.length ≤ 1)

theorem State.Progress.observationExtends {s u : State} (h : s.Progress u) : ObservationExtends s u :=
  let ⟨evs, hevs⟩ := h.trace
  ⟨h.params, ⟨evs, hevs.symm⟩, [], by simp [h.results], by simp⟩

theorem State.Progress.observationExtends_returns {s u : State} (h : s.Progress u) (c : HostCall)
    (code : ResultCode) : ObservationExtends s (u.returns c code) :=
  let ⟨evs, hevs⟩ := h.trace
  ⟨h.params, ⟨evs, hevs.symm⟩, [⟨c, code⟩], by simp [h.results], by simp⟩

theorem exec_observationExtends {i : Instr} {s t : State} (ht : exec i s = .next t) :
    ObservationExtends s t := by
  obtain ⟨u, hu, rfl | ⟨code, rfl⟩⟩ := exec_recorded ht
  · exact hu.observationExtends
  · exact hu.observationExtends_returns _ code

theorem rejectWord_observationExtends {p : Presented} {s t : State} (ht : rejectWord p s = .next t) :
    ObservationExtends s t := by
  cases p <;> cases ht
  exact (State.Progress.refl s).observationExtends_returns _ _

/-! ## The obligations -/

/-- Settles O34: both sides are the sending of `e` from the state after the status read with the head
removed. -/
theorem updateIsItsMicroInstructions : Obligations.UpdateIsItsMicroInstructions := by
  intro s e rest hp hh hq hb
  obtain ⟨hc, he⟩ := s.queue_cons hh hq
  refine ⟨_, ((s.afterReads 1).dropHead).sendEntry e, exec_readStatus_ready s hb, ?_, ?_⟩
  · rw [s.emitAll_statusEvents_drawn]
    exact exec_toInstr e _
  · rw [execUpdate_head_inRange hp hc hb hh, State.transmit_legal _ he]

/-- Settles O59, by the three things a step can be. -/
theorem observationsAreIrrevocable : Obligations.ObservationsAreIrrevocable := by
  intro s t ht
  rcases step_cases s with ⟨_, hs⟩ | ⟨p, rest, i, _, _, hs⟩ | ⟨p, rest, e, _, _, hs⟩
  · cases hs.symm.trans ht
    exact (State.Progress.refl s).observationExtends
  · exact exec_observationExtends (s := { s with presented := rest }) (hs.symm.trans ht)
  · exact rejectWord_observationExtends (s := { s with presented := rest }) (hs.symm.trans ht)

/-- Settles O2: of the things a step can be, the presented word leaves only the run of it. -/
theorem stepRunsTheDecodedWord : Obligations.StepRunsTheDecodedWord := by
  intro s p rest i hp hd
  rcases step_cases s with ⟨h, _⟩ | ⟨p', rest', i', h, hd', hs⟩ | ⟨p', rest', e, h, hd', _⟩ <;>
    cases hp.symm.trans h
  · cases hd.symm.trans hd'
    exact hs
  · cases hd.symm.trans hd'

/-- Settles O30, by whether the index, and then the head, names a slot. -/
theorem updateStopsWhereNoSlotIsReadable : Obligations.UpdateStopsWhereNoSlotIsReadable := by
  constructor
  · intro s i w
    refine ⟨fun hi => ⟨s.memRead_inRange hi, s.setSlot i w, s.memWrite_inRange w hi, ?_, ?_⟩,
      fun hi => s.mem_outOfRange w hi⟩
    · exact Memory.read_write_same _ _ _
    · exact fun a ha => Memory.read_write_other _ _ ha
  · intro s hp hc hb
    refine ⟨execUpdate_head_outOfRange hp hc hb,
      fun hh => ⟨_, execUpdate_head_inRange hp hc hb hh, ?_⟩⟩
    have hcount : (s.afterReads 1).dropHead.count = s.count - 1 := rfl
    rw [State.transmit_count, hcount]
    omega

/-- Settles O41: each entry's micro-instruction sends the entry. -/
theorem entriesSendTheirByte : Obligations.EntriesSendTheirByte :=
  ⟨fun b s => ⟨_, exec_toInstr (.command b) s, s.sendEntry_trace _, s.sendEntry_bus _⟩,
    fun b s => ⟨_, exec_toInstr (.data b) s, s.sendEntry_trace _, s.sendEntry_bus _⟩⟩

/-- The parameters at reset meet their constraints, whatever the free values are. -/
theorem resetParams_ok : Config.resetParams.Ok := by
  simp only [Params.Ok, Config.resetParams]
  omega

/-- Settles O56: the ring is empty, no slot is listed, and no event has set a latch. -/
theorem resetIsSound : Obligations.ResetIsSound where
  left :=
    { params_ok := resetParams_ok
      slots_wf := List.Pairwise.nil
      slots_inRange := fun _ hc => absurd hc List.not_mem_nil
      head_lt := resetParams_ok.1
      count_le := Nat.zero_le _
      live_legal := fun _ hk => absurd hk (Nat.not_lt_zero _)
      not_faulted := Phase.noConfusion }
  right := ⟨rfl, rfl⟩

end Sys2Proof.Machine

/-! Proofs of the statements on the state (10_state.md): the invariants every step keeps, the placement
of the ring, the life cycle, what `Update` and `Init` do to the queue, and a successful `Init`. -/

namespace Sys2Proof.Machine

/-! ## Work on the bus -/

theorem drivesInTurn_append (a b : List BusEvent) (x : Bus) :
    drivesInTurn (a ++ b) x = (drivesInTurn a x && drivesInTurn b (latchesAfter a x)) := by
  induction a generalizing x with
  | nil => simp [drivesInTurn, latchesAfter]
  | cons ev evs ih => simp [drivesInTurn, latchesAfter, ih, Bool.and_assoc]

/-- `u` is `s` after work on the bus that keeps to the direction of the data lines (10_state.md rule
R39): events and the latches they set, some answers drawn, all else as it was. -/
def BusWork (s u : State) : Prop :=
  ∃ evs n, drivesInTurn evs s.bus = true ∧ u = s.onBus evs (latchesAfter evs s.bus) n

theorem BusWork.refl (s : State) : BusWork s s := ⟨[], 0, rfl, by simp [State.onBus, latchesAfter]⟩

theorem BusWork.trans {s t u : State} (h : BusWork s t) (h' : BusWork t u) : BusWork s u := by
  obtain ⟨evs, n, hd, rfl⟩ := h
  obtain ⟨evs', n', hd', rfl⟩ := h'
  refine ⟨evs ++ evs', n + n', ?_, ?_⟩
  · rw [drivesInTurn_append, hd]
    exact hd'
  · rw [State.onBus_onBus, latchesAfter_append]
    rfl

theorem BusWork.phase {s u : State} (h : BusWork s u) : u.phase = s.phase := by
  obtain ⟨evs, n, _, rfl⟩ := h
  rfl

theorem BusWork.queue {s u : State} (h : BusWork s u) : u.queue = s.queue := by
  obtain ⟨evs, n, _, rfl⟩ := h
  rfl

theorem BusWork.dropHead {s u : State} (h : BusWork s u) : BusWork s.dropHead u.dropHead := by
  obtain ⟨evs, n, hd, rfl⟩ := h
  exact ⟨evs, n, hd, rfl⟩

theorem BusWork.resetQueue {s u : State} (h : BusWork s u) : BusWork s.resetQueue u.resetQueue := by
  obtain ⟨evs, n, hd, rfl⟩ := h
  exact ⟨evs, n, hd, rfl⟩

theorem busWork_emitAll {s : State} {evs : List BusEvent} (h : drivesInTurn evs s.bus = true) :
    BusWork s (State.emitAll evs s) := ⟨evs, 0, h, State.emitAll_eq evs s⟩

theorem busWork_sendByte (s : State) (rs : Bool) (b : Byte) : BusWork s (s.sendByte rs b) := by
  rw [State.sendByte_emitAll]
  exact busWork_emitAll rfl

theorem busWork_sendEntry (s : State) (e : Entry) : BusWork s (s.sendEntry e) := by
  rw [State.sendEntry_eq]
  exact busWork_sendByte s _ _

theorem busWork_afterReads_one (s : State) : BusWork s (s.afterReads 1) :=
  ⟨s.statusReads 1, 2, rfl, rfl⟩

theorem busWork_bringUp (s : State) : BusWork s s.bringUp :=
  ⟨bringUpEvents s.params, 0, rfl, s.bringUp_eq⟩

theorem busWork_pollReady (k : Nat) (s : State) : BusWork s (State.pollReady k s).2 := by
  induction k generalizing s with
  | zero => exact BusWork.refl s
  | succ k ih =>
    simp only [State.pollReady, State.readStatus_afterReads]
    split
    · exact (busWork_afterReads_one s).trans (ih _)
    · exact busWork_afterReads_one s

theorem busWork_setUp (bs : List Byte) (s : State) : BusWork s (State.setUp bs s).2 := by
  induction bs generalizing s with
  | nil => exact BusWork.refl s
  | cons b bs ih =>
    have hpoll := (busWork_sendByte s false b).trans (busWork_pollReady s.params.initPollLimit _)
    rw [State.setUp_cons]
    split
    · exact hpoll.trans (ih _)
    · exact hpoll

/-! ## The prologues -/

theorem gate_eq_none_iff {p : Phase} : gate p = none ↔ p = .ready := by cases p <;> simp [gate]

theorem initGate_eq_none_iff {p : Phase} : initGate p = none ↔ p = .uninit := by
  cases p <;> simp [initGate]

theorem encoderOp_gated {s : State} {code : ResultCode} (hg : gate s.phase = some code) (i : Instr)
    (check : Option ResultCode) (es : List Entry) :
    s.encoderOp i check es = .next (s.returns (.operation i) code) := by simp [State.encoderOp, hg]

/-- A host operation other than `Init` returns the code of its prologue and does nothing else. -/
theorem exec_gated {i : Instr} {s : State} {code : ResultCode} (hi : isHostOp i = true)
    (hne : i ≠ .init) (hg : gate s.phase = some code) :
    exec i s = .next (s.returns (.operation i) code) := by
  rcases isHostOp_cases hi with rfl | rfl | he
  · exact absurd rfl hne
  · simp [exec, execUpdate, hg]
  · cases hw : wellFormed i with
    | true => rw [exec_encoder_wellFormed i s he hw, encoderOp_gated hg]
    | false =>
      obtain ⟨es, hes⟩ := exec_encoder_illFormed i s he hw
      rw [hes, encoderOp_gated hg]

theorem exec_init_gated {s : State} {code : ResultCode} (hg : initGate s.phase = some code) :
    exec .init s = .next (s.returns (.operation .init) code) := by
  simp [exec, execInit, State.runInit, hg]

/-! ## The encoder operations and their first cause -/

theorem firstCause_of_gate {i : Instr} {s : State} {code : ResultCode}
    (hg : gate s.phase = some code) : firstCause i s = code ∧ code ≠ .ok := by
  cases hp : s.phase <;> simp [hp, gate] at hg <;> simp [firstCause, hp, ← hg]

theorem validationCode_ne_ok {i : Instr} (hw : wellFormed i = false) : validationCode i ≠ .ok := by
  cases i <;> simp [wellFormed] at hw <;> simp [validationCode]

/-- An encoder operation returns the code of its first cause and does nothing else, or no cause applies
and it appends its entries (60_exceptions.md rule R234). -/
theorem exec_encoder_firstCause {i : Instr} (s : State) (he : isEncoder i = true) :
    (∃ code, exec i s = .next (s.returns (.operation i) code) ∧
      (s.count ≤ s.params.qcap → firstCause i s = code ∧ code ≠ .ok)) ∨
    (s.phase = .ready ∧ s.count + (appends i).length ≤ s.params.qcap ∧ firstCause i s = .ok ∧
      exec i s = .next ((State.appendAll (appends i) s).returns (.operation i) .ok)) := by
  cases hw : wellFormed i with
  | true =>
    rw [exec_encoder_wellFormed i s he hw]
    rcases s.encoderOp_cases i none (appends i) with
      ⟨code, hn, hg | ⟨_, hcheck⟩ | ⟨hg, _, hfull, rfl⟩⟩ | ⟨hg, _, hroom, hn⟩
    · exact .inl ⟨code, hn, fun _ => firstCause_of_gate hg⟩
    · cases hcheck
    · have hp := gate_eq_none_iff.mp hg
      refine .inl ⟨_, hn, fun hc => ⟨?_, by decide⟩⟩
      have hroom : s.params.qcap - s.count < (appends i).length := by omega
      simp [firstCause, hp, hw, hroom]
    · have hp := gate_eq_none_iff.mp hg
      refine .inr ⟨hp, hroom, ?_, hn⟩
      have hroom' : ¬ s.params.qcap - s.count < (appends i).length := by omega
      simp [firstCause, hp, hw, hroom']
  | false =>
    obtain ⟨es, hes⟩ := exec_encoder_illFormed i s he hw
    rw [hes]
    rcases s.encoderOp_cases i (some (validationCode i)) es with
      ⟨code, hn, hg | ⟨hg, hcheck⟩ | ⟨_, hcheck, _⟩⟩ | ⟨_, hcheck, _⟩
    · exact .inl ⟨code, hn, fun _ => firstCause_of_gate hg⟩
    · cases hcheck
      have hp := gate_eq_none_iff.mp hg
      exact .inl ⟨_, hn, fun _ => ⟨by simp [firstCause, hp, hw], validationCode_ne_ok hw⟩⟩
    · cases hcheck
    · cases hcheck

/-! ## Everything an instruction can do -/

/-- What an instruction that completes can do to the state, guards included. -/
inductive Transition (s : State) : Instr → State → Prop where
  /-- A transfer, or an entry run on its own: work on the bus. -/
  | transfer {i u} (hi : isHostOp i = false) (hu : BusWork s u) : Transition s i u
  /-- A code and no other effect. -/
  | code {i} (hi : isHostOp i = true) (code : ResultCode) :
    Transition s i (s.returns (.operation i) code)
  /-- An encoder operation with room appends its entries. -/
  | append {i} (hi : isEncoder i = true) (hp : s.phase = .ready)
    (hroom : s.count + (appends i).length ≤ s.params.qcap) :
    Transition s i ((State.appendAll (appends i) s).returns (.operation i) .ok)
  /-- `Update` finds the device busy. -/
  | busyDevice {u} (hp : s.phase = .ready) (hu : BusWork s u) :
    Transition s .update (u.returns (.operation .update) .ok)
  /-- `Update` removes the head entry and sends it. -/
  | send {u} (hp : s.phase = .ready) (hc : 0 < s.count) (hu : BusWork s.dropHead u) :
    Transition s .update (u.returns (.operation .update) .ok)
  /-- `Update` removes the head word, whose tag is illegal. -/
  | illegalTag {u} (hp : s.phase = .ready) (hc : 0 < s.count) (hh : s.head < s.params.qcap)
    (hw : decodeEntry (s.slots.read s.head) = none) (hu : BusWork s.dropHead u) :
    Transition s .update ((u.setPhase .faulted).returns (.operation .update) .protocolFault)
  /-- `Init` succeeds. -/
  | initReady {u} (hp : s.phase = .uninit) (hu : BusWork s.resetQueue u) :
    Transition s .init ((u.setPhase .ready).returns (.operation .init) .ok)
  /-- `Init` finds the device busy up to the limit. -/
  | initBusy {u} (hp : s.phase = .uninit) (hu : BusWork s.resetQueue u) :
    Transition s .init (u.returns (.operation .init) .hardwareFault)

theorem execUpdate_transition {s t : State} (ht : exec .update s = .next t) :
    Transition s .update t := by
  have hread := busWork_afterReads_one s
  rcases execUpdate_cases s with ⟨code, _, hn⟩ | ⟨_, _, hn⟩ | ⟨hp, _, _, hn⟩ | ⟨_, _, _, f, _, hn⟩ |
    ⟨hp, hc, _, w, hw, hn⟩ <;> cases hn.symm.trans ht
  · exact .code rfl code
  · exact .code rfl .ok
  · exact .busyDevice hp hread
  · obtain ⟨hh, rfl⟩ := s.memRead_ok hw
    cases he : decodeEntry (s.slots.read s.head) with
    | some e =>
      rw [State.transmit_legal _ he]
      exact .send hp hc (hread.dropHead.trans (busWork_sendEntry _ e))
    | none =>
      rw [State.transmit_illegal _ he]
      exact .illegalTag hp hc hh he hread.dropHead

theorem execInit_transition {s t : State} (ht : exec .init s = .next t) : Transition s .init t := by
  by_cases hp : s.phase = .uninit
  · have hwork := (busWork_bringUp s).resetQueue.trans (busWork_setUp setupBytes _)
    cases hr : State.setUp setupBytes s.bringUp.resetQueue with | mk ready u
    rw [hr] at hwork
    cases (execInit_uninit s hp hr).symm.trans ht
    cases ready with
    | true => exact .initReady hp hwork
    | false => exact .initBusy hp hwork
  · obtain ⟨code, _, hn⟩ := execInit_gate s hp
    cases hn.symm.trans ht
    exact .code rfl code

theorem exec_transition {i : Instr} {s t : State} (ht : exec i s = .next t) : Transition s i t := by
  cases hi : isHostOp i with
  | false =>
    obtain ⟨evs, hn, hd⟩ := exec_transfer i s hi
    cases hn.symm.trans ht
    exact .transfer hi (busWork_emitAll hd)
  | true =>
    rcases isHostOp_cases hi with rfl | rfl | he
    · exact execInit_transition ht
    · exact execUpdate_transition ht
    · rcases exec_encoder_firstCause s he with ⟨code, hn, _⟩ | ⟨hp, hroom, _, hn⟩ <;>
        cases hn.symm.trans ht
      · exact .code hi code
      · exact .append he hp hroom

theorem step_waits {s : State} (hp : s.presented = []) : step s = .next s := by
  simp [step, State.fetch, hp]

theorem step_rejects {s : State} {p : Presented} {rest : List Presented} {e : DecodeError}
    (hp : s.presented = p :: rest) (hd : decode p = .error e) :
    step s = rejectWord p { s with presented := rest } := by simp [step, State.fetch, hp, hd]

/-- What taking a word, recording a result and running an instruction keep, every step keeps. -/
theorem step_keeps {P : State → Prop}
    (take : ∀ s rest, P s → P { s with presented := rest })
    (returns : ∀ s c code, P s → P (State.returns s c code))
    (run : ∀ i s t, P s → exec i s = .next t → P t) {s t : State} (h : P s)
    (ht : step s = .next t) : P t := by
  rcases step_cases s with ⟨_, hs⟩ | ⟨p, rest, i, _, _, hs⟩ | ⟨p, rest, e, _, _, hs⟩
  · cases hs.symm.trans ht
    exact h
  · exact run i _ t (take s rest h) (hs.symm.trans ht)
  · rw [hs] at ht
    cases p <;> cases ht
    exact returns _ _ _ (take s rest h)

/-! ## Sound states -/

/-- Soundness reads the parameters and the ring, and of the phase only that it is not `FAULTED`. -/
theorem State.Inv.congr {s u : State} (h : s.Inv) (hparams : u.params = s.params)
    (hslots : u.slots = s.slots) (hhead : u.head = s.head) (hcount : u.count = s.count)
    (hphase : u.phase ≠ .faulted) : u.Inv where
  params_ok := hparams ▸ h.params_ok
  slots_wf := hslots ▸ h.slots_wf
  slots_inRange := by rw [hslots, hparams]; exact h.slots_inRange
  head_lt := by rw [hhead, hparams]; exact h.head_lt
  count_le := by rw [hcount, hparams]; exact h.count_le
  live_legal := by
    simp only [State.ringSlot, hslots, hhead, hcount, hparams]
    exact h.live_legal
  not_faulted := hphase

theorem State.Inv.returns {s : State} (h : s.Inv) (c : HostCall) (code : ResultCode) :
    (s.returns c code).Inv := h.congr rfl rfl rfl rfl h.not_faulted

theorem State.Inv.take {s : State} (h : s.Inv) (rest : List Presented) :
    State.Inv { s with presented := rest } := h.congr rfl rfl rfl rfl h.not_faulted

theorem State.Inv.busWork {s u : State} (h : s.Inv) (hu : BusWork s u) : u.Inv := by
  obtain ⟨evs, n, _, rfl⟩ := hu
  exact h.congr rfl rfl rfl rfl h.not_faulted

theorem State.live_legal_iff (s : State) :
    (∀ k < s.count, (decodeEntry (s.slots.read (s.ringSlot k))).isSome) ↔
      ∀ x ∈ s.queue, x.isSome := by simp [State.queue]

theorem State.Inv.dropHead {s : State} (h : s.Inv) : s.dropHead.Inv where
  params_ok := h.params_ok
  slots_wf := h.slots_wf
  slots_inRange := h.slots_inRange
  head_lt := Nat.mod_lt _ h.params_ok.1
  count_le := (Nat.sub_le _ _).trans h.count_le
  live_legal := by
    rw [State.live_legal_iff, State.dropHead_queue]
    exact fun x hx => s.live_legal_iff.mp h.live_legal x (List.mem_of_mem_tail hx)
  not_faulted := h.not_faulted

theorem State.Inv.resetQueue {s : State} (h : s.Inv) : s.resetQueue.Inv where
  params_ok := h.params_ok
  slots_wf := h.slots_wf
  slots_inRange := h.slots_inRange
  head_lt := h.params_ok.1
  count_le := Nat.zero_le _
  live_legal := fun _ hk => absurd hk (Nat.not_lt_zero _)
  not_faulted := h.not_faulted

section AppendAll

variable (es : List Entry) (s : State)

@[simp] theorem State.appendAll_params : (State.appendAll es s).params = s.params := by
  rw [State.appendAll_frame]

@[simp] theorem State.appendAll_phase : (State.appendAll es s).phase = s.phase := by
  rw [State.appendAll_frame]

@[simp] theorem State.appendAll_head : (State.appendAll es s).head = s.head := by
  rw [State.appendAll_frame]

@[simp] theorem State.appendAll_count :
    (State.appendAll es s).count = s.count + es.length := by rw [State.appendAll_frame]

@[simp] theorem State.appendAll_bus : (State.appendAll es s).bus = s.bus := by
  rw [State.appendAll_frame]

@[simp] theorem State.appendAll_trace : (State.appendAll es s).trace = s.trace := by
  rw [State.appendAll_frame]

end AppendAll

theorem State.Inv.appendAll {s : State} {es : List Entry} (h : s.Inv)
    (hroom : s.count + es.length ≤ s.params.qcap) : (State.appendAll es s).Inv where
  params_ok := by simpa using h.params_ok
  slots_wf := State.appendAll_wf es s h.slots_wf
  slots_inRange := by
    simpa using State.appendAll_inRange es s h.params_ok.1 h.slots_inRange
  head_lt := by simpa using h.head_lt
  count_le := by simpa using hroom
  live_legal := by
    rw [State.live_legal_iff, State.appendAll_queue es s hroom]
    intro x hx
    rcases List.mem_append.mp hx with hx | hx
    · exact s.live_legal_iff.mp h.live_legal x hx
    · obtain ⟨e, _, rfl⟩ := List.mem_map.mp hx
      rfl
  not_faulted := by simpa using h.not_faulted

/-- The head's word of a sound state with an entry pending is legal. -/
theorem State.Inv.head_legal {s : State} (h : s.Inv) (hc : 0 < s.count) :
    decodeEntry (s.slots.read s.head) ≠ none := by
  have hslot : s.ringSlot 0 = s.head := Nat.mod_eq_of_lt h.head_lt
  have hlegal := h.live_legal 0 hc
  rw [hslot] at hlegal
  exact Option.isSome_iff_ne_none.mp hlegal

theorem exec_keeps_inv (i : Instr) (s t : State) (h : s.Inv) (ht : exec i s = .next t) : t.Inv := by
  cases exec_transition ht with
  | transfer _ hu => exact h.busWork hu
  | code _ code => exact h.returns _ code
  | append _ _ hroom => exact (h.appendAll hroom).returns _ _
  | busyDevice _ hu => exact (h.busWork hu).returns _ _
  | send _ _ hu => exact (h.dropHead.busWork hu).returns _ _
  | illegalTag _ hc _ hw _ => exact absurd hw (h.head_legal hc)
  | initReady _ hu => exact (h.resetQueue.busWork hu).congr rfl rfl rfl rfl Phase.noConfusion
  | initBusy _ hu => exact (h.resetQueue.busWork hu).returns _ _

/-! ## The latches and the direction of the data lines -/

/-- The invariant reads the latches and the trace alone. -/
theorem State.BusInv.congr {s u : State} (h : s.BusInv) (hbus : u.bus = s.bus)
    (htrace : u.trace = s.trace) : u.BusInv where
  latches := by rw [hbus, htrace]; exact h.latches
  inTurn := htrace ▸ h.inTurn

theorem State.BusInv.busWork {s u : State} (h : s.BusInv) (hu : BusWork s u) : u.BusInv := by
  obtain ⟨evs, n, hd, rfl⟩ := hu
  constructor
  · rw [State.onBus_bus, State.onBus_trace, latchesAfter_append, ← h.latches]
  · rw [State.onBus_trace, drivesInTurn_append, h.inTurn, ← h.latches, hd]
    rfl

theorem exec_keeps_busInv (i : Instr) (s t : State) (h : s.BusInv) (ht : exec i s = .next t) :
    t.BusInv := by
  have hdrop : s.dropHead.BusInv := h.congr rfl rfl
  have hreset : s.resetQueue.BusInv := h.congr rfl rfl
  cases exec_transition ht with
  | transfer _ hu => exact h.busWork hu
  | code => exact h.congr rfl rfl
  | append => exact h.congr (State.appendAll_bus _ s) (State.appendAll_trace _ s)
  | busyDevice _ hu => exact (h.busWork hu).congr rfl rfl
  | send _ _ hu => exact (hdrop.busWork hu).congr rfl rfl
  | illegalTag _ _ _ _ hu => exact (hdrop.busWork hu).congr rfl rfl
  | initReady _ hu => exact (hreset.busWork hu).congr rfl rfl
  | initBusy _ hu => exact (hreset.busWork hu).congr rfl rfl

/-! ## Faults -/

/-- The one fault of an instruction: `Update` with a head that names no slot. -/
theorem exec_fault {i : Instr} {s : State} {f : Fault} (hf : exec i s = .fault f) :
    i = .update ∧ s.params.qcap ≤ s.head := by
  cases hi : isHostOp i with
  | false =>
    obtain ⟨evs, hn, _⟩ := exec_transfer i s hi
    cases hn.symm.trans hf
  | true =>
    rcases isHostOp_cases hi with rfl | rfl | he
    · cases hf
    · refine ⟨rfl, ?_⟩
      rcases execUpdate_cases s with ⟨_, _, hn⟩ | ⟨_, _, hn⟩ | ⟨_, _, _, hn⟩ | ⟨_, _, _, g, hg, _⟩ |
        ⟨_, _, _, _, _, hn⟩
      case inr.inr.inr.inl =>
        by_contra hh
        rw [s.memRead_inRange (Nat.lt_of_not_le hh)] at hg
        cases hg
      all_goals cases hn.symm.trans hf
    · rcases exec_encoder_cases i s he with ⟨_, hn⟩ | hn <;> cases hn.symm.trans hf

/-! ## `Update` with an empty queue, and with a busy device -/

theorem execUpdate_empty {s : State} (hp : s.phase = .ready) (hc : s.count = 0) :
    exec .update s = .next (s.returns (.operation .update) .ok) := by
  simp [exec, execUpdate, hp, gate, State.isEmpty, hc]

theorem execUpdate_busy {s : State} (hp : s.phase = .ready) (hc : 0 < s.count)
    (hb : busy (s.statusAnswer 0) = true) :
    exec .update s = .next ((s.afterReads 1).returns (.operation .update) .ok) := by
  simp [exec, execUpdate, hp, gate, State.isEmpty, hc.ne', State.readStatus_afterReads, hb]

/-! ## What keeps the view of the queue -/

theorem sameOutcome_of_next {x y : Host.Outcome State Fault Refusal} {u v : State}
    (hx : x = .next u) (hy : y = .next v) (h : SameView u v) : sameOutcome x y := by
  rw [hx, hy]
  exact h

theorem SameView.count_eq {s t : State} (h : SameView s t) : s.count = t.count := by
  rw [← s.queue_length, ← t.queue_length, h.queue]

theorem SameView.returns {s t : State} (h : SameView s t) (c : HostCall) (code : ResultCode) :
    SameView (s.returns c code) (t.returns c code) :=
  { h with results := by simp [h.results] }

theorem SameView.appendAll {s t : State} {es : List Entry} (h : SameView s t)
    (hs : s.count + es.length ≤ s.params.qcap) (ht : t.count + es.length ≤ t.params.qcap) :
    SameView (State.appendAll es s) (State.appendAll es t) := by
  have hqueue : (State.appendAll es s).queue = (State.appendAll es t).queue := by
    rw [State.appendAll_queue es s hs, State.appendAll_queue es t ht, h.queue]
  rw [State.appendAll_frame es s, State.appendAll_frame es t] at hqueue ⊢
  exact { h with queue := hqueue }

theorem SameView.dropHead {s t : State} (h : SameView s t) : SameView s.dropHead t.dropHead :=
  { h with queue := by rw [State.dropHead_queue, State.dropHead_queue, h.queue] }

theorem SameView.setPhase {s t : State} (h : SameView s t) (p : Phase) :
    SameView (s.setPhase p) (t.setPhase p) := { h with phase := rfl }

theorem SameView.onBus {s t : State} (h : SameView s t) (evs : List BusEvent) (bus : Bus) (n : Nat) :
    SameView (s.onBus evs bus n) (t.onBus evs bus n) :=
  { h with
    bus := rfl
    trace := by simp [h.trace]
    device := by simp [h.device]
    draws := by simp [h.draws] }

theorem SameView.statusAnswer {s t : State} (h : SameView s t) (k : Nat) :
    s.statusAnswer k = t.statusAnswer k := by
  simp [State.statusAnswer, State.answer, h.device, h.draws]

theorem SameView.afterReads {s t : State} (h : SameView s t) (n : Nat) :
    SameView (s.afterReads n) (t.afterReads n) := by
  have hreads : s.statusReads n = t.statusReads n := by simp [State.statusReads, h.statusAnswer]
  rw [State.afterReads_onBus, State.afterReads_onBus, hreads, h.bus]
  exact h.onBus _ _ _

theorem SameView.emitAll {s t : State} (h : SameView s t) (evs : List BusEvent) :
    SameView (State.emitAll evs s) (State.emitAll evs t) := by
  rw [State.emitAll_eq, State.emitAll_eq, h.bus]
  exact { h with bus := rfl, trace := by simp [h.trace] }

theorem SameView.sendByte {s t : State} (h : SameView s t) (rs : Bool) (b : Byte) :
    SameView (s.sendByte rs b) (t.sendByte rs b) := by
  rw [State.sendByte_emitAll, State.sendByte_emitAll]
  exact h.emitAll _

theorem SameView.pollReady {s t : State} (h : SameView s t) (k : Nat) :
    (State.pollReady k s).1 = (State.pollReady k t).1 ∧
      SameView (State.pollReady k s).2 (State.pollReady k t).2 := by
  induction k generalizing s t with
  | zero => exact ⟨rfl, h⟩
  | succ k ih =>
    simp only [State.pollReady, State.readStatus_afterReads, h.statusAnswer 0]
    split
    · exact ih (h.afterReads 1)
    · exact ⟨rfl, h.afterReads 1⟩

theorem SameView.setUp {s t : State} (h : SameView s t) (bs : List Byte) :
    (State.setUp bs s).1 = (State.setUp bs t).1 ∧
      SameView (State.setUp bs s).2 (State.setUp bs t).2 := by
  induction bs generalizing s t with
  | nil => exact ⟨rfl, h⟩
  | cons b bs ih =>
    obtain ⟨hready, hview⟩ := (h.sendByte false b).pollReady s.params.initPollLimit
    rw [State.setUp_cons, State.setUp_cons, ← h.params, hready]
    split
    · exact ih hview
    · exact ⟨rfl, hview⟩

/-- Steps 1 to 3 of `Init`. -/
theorem State.bringUp_resetQueue (s : State) :
    s.bringUp.resetQueue = s.resetQueue.onBus (bringUpEvents s.params)
      ⟨.low, .low, .output, .nibble 0b0010, .low⟩ 0 := by
  rw [State.bringUp_eq]
  rfl

/-- Two states that agree once their queues are emptied, wherever their rings lie: in `UNINIT`, `Init`
does the same in both and leaves the queue empty. -/
theorem execInit_sameView {s t : State} (h : SameView s.resetQueue t.resetQueue)
    (hp : s.phase = .uninit) :
    ∃ u v, exec .init s = .next u ∧ exec .init t = .next v ∧ SameView u v ∧ u.queue = [] := by
  have hp' : t.phase = .uninit := h.phase.symm.trans hp
  have hstart : SameView s.bringUp.resetQueue t.bringUp.resetQueue := by
    have hparams : s.params = t.params := h.params
    rw [State.bringUp_resetQueue, State.bringUp_resetQueue, hparams]
    exact h.onBus _ _ _
  obtain ⟨hready, hview⟩ := hstart.setUp setupBytes
  obtain ⟨evs, n, _, hu⟩ := busWork_setUp setupBytes s.bringUp.resetQueue
  have hqueue : (State.setUp setupBytes s.bringUp.resetQueue).2.queue = [] := by
    rw [hu]
    rfl
  cases hs : State.setUp setupBytes s.bringUp.resetQueue with | mk ready u
  cases ht : State.setUp setupBytes t.bringUp.resetQueue with | mk ready' v
  rw [hs, ht] at hready hview
  rw [hs] at hqueue
  obtain rfl : ready = ready' := hready
  refine ⟨_, _, execInit_uninit s hp hs, execInit_uninit t hp' ht, ?_⟩
  cases ready with
  | true => exact ⟨(hview.setPhase _).returns _ _, hqueue⟩
  | false => exact ⟨hview.returns _ _, hqueue⟩

/-- What `Update` does with the word it took depends on the entry the word encodes alone. -/
theorem SameView.transmit {s t : State} (h : SameView s t) {w w' : EntryWord}
    (hw : decodeEntry w = decodeEntry w') : SameView (s.transmit w) (t.transmit w') := by
  cases hd : decodeEntry w with
  | some e =>
    rw [s.transmit_legal hd, t.transmit_legal (hw ▸ hd), State.sendEntry_eq, State.sendEntry_eq,
      State.sendByte_onBus, State.sendByte_onBus]
    exact (h.onBus _ _ _).returns _ _
  | none =>
    rw [s.transmit_illegal hd, t.transmit_illegal (hw ▸ hd)]
    exact (h.setPhase _).returns _ _

theorem SameView.head_decodes {s t : State} (h : SameView s t) (hs : s.head < s.params.qcap)
    (ht : t.head < t.params.qcap) (hc : 0 < s.count) :
    decodeEntry (s.slots.read s.head) = decodeEntry (t.slots.read t.head) := by
  have hslot : s.ringSlot 0 = s.head := Nat.mod_eq_of_lt hs
  have hslot' : t.ringSlot 0 = t.head := Nat.mod_eq_of_lt ht
  have hfirst := s.queue_getElem? hc
  rw [h.queue, t.queue_getElem? (h.count_eq ▸ hc), hslot, hslot'] at hfirst
  exact (Option.some.inj hfirst).symm

theorem SameView.execInit {s t : State} (h : SameView s t) :
    sameOutcome (exec .init s) (exec .init t) := by
  cases hg : initGate s.phase with
  | some code =>
    exact sameOutcome_of_next (exec_init_gated hg) (exec_init_gated (h.phase ▸ hg)) (h.returns _ _)
  | none =>
    have hreset : SameView s.resetQueue t.resetQueue := { h with queue := rfl }
    obtain ⟨u, v, hu, hv, hview, _⟩ := execInit_sameView hreset (initGate_eq_none_iff.mp hg)
    exact sameOutcome_of_next hu hv hview

theorem SameView.exec_transfer {s t : State} (h : SameView s t) {i : Instr} (hi : isHostOp i = false) :
    sameOutcome (exec i s) (exec i t) := by
  cases i <;> simp only [isHostOp, Bool.true_eq_false] at hi
  case readStatus | bringUp0011 | bringUp0010 => exact h.emitAll _
  all_goals exact h.sendByte _ _

section Matching

variable {s t : State} (hs : s.Inv) (ht : t.Inv) (h : SameView s t)
include hs ht h

theorem execUpdate_sameOutcome : sameOutcome (exec .update s) (exec .update t) := by
  cases hg : gate s.phase with
  | some code =>
    exact sameOutcome_of_next (exec_gated rfl (by decide) hg)
      (exec_gated rfl (by decide) (h.phase ▸ hg)) (h.returns _ _)
  | none =>
    have hp := gate_eq_none_iff.mp hg
    have hp' := h.phase ▸ hp
    rcases Nat.eq_zero_or_pos s.count with hc | hc
    · exact sameOutcome_of_next (execUpdate_empty hp hc) (execUpdate_empty hp' (h.count_eq ▸ hc))
        (h.returns _ _)
    · have hc' := h.count_eq ▸ hc
      cases hb : busy (s.statusAnswer 0) with
      | true =>
        have hb' := h.statusAnswer 0 ▸ hb
        exact sameOutcome_of_next (execUpdate_busy hp hc hb) (execUpdate_busy hp' hc' hb')
          ((h.afterReads 1).returns _ _)
      | false =>
        have hb' := h.statusAnswer 0 ▸ hb
        exact sameOutcome_of_next (execUpdate_head_inRange hp hc hb hs.head_lt)
          (execUpdate_head_inRange hp' hc' hb' ht.head_lt)
          ((h.afterReads 1).dropHead.transmit (h.head_decodes hs.head_lt ht.head_lt hc))

theorem exec_encoder_sameOutcome {i : Instr} (hi : isEncoder i = true) :
    sameOutcome (exec i s) (exec i t) := by
  have hcause : firstCause i s = firstCause i t := by
    simp only [firstCause, h.phase, h.params, h.count_eq]
  rcases exec_encoder_firstCause s hi with ⟨code, hn, hcode⟩ | ⟨_, hroom, hok, hn⟩ <;>
    rcases exec_encoder_firstCause t hi with ⟨code', hn', hcode'⟩ | ⟨_, hroom', hok', hn'⟩
  · obtain ⟨rfl, _⟩ := hcode hs.count_le
    obtain ⟨rfl, _⟩ := hcode' ht.count_le
    exact sameOutcome_of_next hn hn' (hcause ▸ h.returns _ _)
  · obtain ⟨rfl, hne⟩ := hcode hs.count_le
    exact absurd (hcause.trans hok') hne
  · obtain ⟨rfl, hne⟩ := hcode' ht.count_le
    exact absurd (hcause.symm.trans hok) hne
  · exact sameOutcome_of_next hn hn' ((h.appendAll hroom hroom').returns _ _)

theorem exec_sameOutcome (i : Instr) : sameOutcome (exec i s) (exec i t) := by
  cases hi : isHostOp i with
  | false => exact h.exec_transfer hi
  | true =>
    rcases isHostOp_cases hi with rfl | rfl | he
    · exact h.execInit
    · exact execUpdate_sameOutcome hs ht h
    · exact exec_encoder_sameOutcome hs ht h he

end Matching

/-! ## The set-up bytes of `Init` on a device that becomes ready -/

/-- The events of set-up byte `b` sent after `n` status reads, its poll ending at the `j`-th further
one. -/
def State.setUpEvents (s : State) (b : Byte) (n j : Nat) : List BusEvent :=
  byteEvents false b ++ (List.range' n (j + 1)).flatMap fun k => statusEvents (s.statusAnswer k)

theorem State.setUpEvents_length (s : State) (b : Byte) (n j : Nat) :
    (s.setUpEvents b n j).length = 10 + 7 * (j + 1) := by
  have hbyte : (byteEvents false b).length = 10 := rfl
  simp [State.setUpEvents, hbyte, statusEvents, Nat.mul_comm]

theorem State.setUp_ready_onBus (b : Byte) (bs : List Byte) (s : State) (evs : List BusEvent)
    (bus : Bus) (n : Nat) {j : Nat} (hj : j < s.params.initPollLimit)
    (hb : ∀ m < j, busy (s.statusAnswer (n + m)) = true)
    (hr : busy (s.statusAnswer (n + j)) = false) :
    State.setUp (b :: bs) (s.onBus evs bus (2 * n)) = State.setUp bs
      (s.onBus (evs ++ s.setUpEvents b n j) ⟨.low, .high, .input, .nibble (lowNibble b), .low⟩
        (2 * (n + j + 1))) := by
  rw [State.setUp_ready (j := j)]
  · rw [State.statusReads_onBus, State.onBus_onBus, State.setUpEvents,
      show 2 * n + 2 * (j + 1) = 2 * (n + j + 1) by omega]
  · exact hj
  · simpa only [State.statusAnswer_onBus] using hb
  · simpa only [State.statusAnswer_onBus] using hr

/-- The three set-up bytes, on a device that is busy for `a`, `b` and `c` polls after them. -/
theorem State.setUp_setupBytes_ready (s : State) (evs : List BusEvent) (bus : Bus) {a b c : Nat}
    (ha : a < s.params.initPollLimit) (hb : b < s.params.initPollLimit)
    (hc : c < s.params.initPollLimit)
    (hready : ∀ n < a + b + c + 3,
      (busy (s.statusAnswer n) = false ↔ n = a ∨ n = a + b + 1 ∨ n = a + b + c + 2)) :
    State.setUp setupBytes (s.onBus evs bus 0) =
      (true, s.onBus
        (evs ++ s.setUpEvents 0x28 0 a ++ s.setUpEvents 0x0F (a + 1) b ++
          s.setUpEvents 0x01 (a + b + 2) c)
        ⟨.low, .high, .input, .nibble 0x1, .low⟩ (2 * (a + b + c + 3))) := by
  have hbusy : ∀ n < a + b + c + 3, n ≠ a → n ≠ a + b + 1 → n ≠ a + b + c + 2 →
      busy (s.statusAnswer n) = true := fun n hn h₁ h₂ h₃ => by
    simpa [h₁, h₂, h₃] using hready n hn
  have hfirst := State.setUp_ready_onBus 0x28 [0x0F, 0x01] s evs bus 0 ha
    (fun m hm => hbusy _ (by omega) (by omega) (by omega) (by omega))
    ((hready _ (by omega)).mpr (by omega))
  rw [State.setUp_ready_onBus 0x0F _ s _ _ (0 + a + 1) hb
      (fun m hm => hbusy _ (by omega) (by omega) (by omega) (by omega))
      ((hready _ (by omega)).mpr (by omega)),
    State.setUp_ready_onBus 0x01 _ s _ _ (0 + a + 1 + b + 1) hc
      (fun m hm => hbusy _ (by omega) (by omega) (by omega) (by omega))
      ((hready _ (by omega)).mpr (by omega)),
    show 0 + a + 1 = a + 1 by omega, show a + 1 + b + 1 = a + b + 2 by omega,
    show a + b + 2 + c + 1 = a + b + c + 3 by omega] at hfirst
  exact hfirst

/-! ## The obligations -/

/-- Settles O54: a step waits, runs the same instruction in both states, or rejects the same word. -/
theorem ringPlacementIsUnobservable : Obligations.RingPlacementIsUnobservable := by
  intro s t hs ht h
  have take : ∀ rest : List Presented,
      SameView { s with presented := rest } { t with presented := rest } :=
    fun rest => { h with presented := rfl }
  rcases step_cases s with ⟨hp, hn⟩ | ⟨p, rest, i, hp, hd, hn⟩ | ⟨p, rest, e, hp, hd, hn⟩
  · rw [hn, step_waits (h.presented ▸ hp)]
    exact h
  · rw [hn, stepRunsTheDecodedWord t p rest i (h.presented ▸ hp) hd]
    exact exec_sameOutcome (hs.take rest) (ht.take rest) (take rest) i
  · rw [hn, step_rejects (h.presented ▸ hp) hd]
    cases p with
    | host32 w str => exact (take rest).returns _ _
    | entry16 w => rfl
    | bus10 w => rfl
    | nib6 w => rfl

/-- Settles O55: soundness is kept by every transition, and the illegal tag is none a sound state can
meet. -/
theorem stepKeepsSoundStates : Obligations.StepKeepsSoundStates :=
  fun _ _ => step_keeps (fun _ rest h => State.Inv.take h rest)
    (fun _ c code h => State.Inv.returns h c code) exec_keeps_inv

/-- Settles O58: every transition is work on the bus, up to fields the invariant does not read. -/
theorem stepKeepsLatchesAndDirection : Obligations.StepKeepsLatchesAndDirection :=
  fun _ _ => step_keeps (fun _ _ h => State.BusInv.congr h rfl rfl)
    (fun _ _ _ h => State.BusInv.congr h rfl rfl) exec_keeps_busInv

/-- Settles O1: every operation but `Init` is stopped by its prologue, and `Init` empties the queue
before anything could read it. -/
theorem resetStateAsSpecified : Obligations.ResetStateAsSpecified := by
  refine ⟨⟨rfl, rfl, rfl, rfl, rfl, rfl, rfl⟩, rfl, fun i s m h c hi hp => ?_⟩
  by_cases hinit : i = .init
  · subst hinit
    have hview : SameView s.resetQueue
        ({ s with slots := m, head := h, count := c } : State).resetQueue :=
      ⟨rfl, rfl, rfl, rfl, rfl, rfl, rfl, rfl, rfl⟩
    obtain ⟨t, u, ht, hu, hview, hqueue⟩ := execInit_sameView hview hp
    exact ⟨t, u, ht, hu, hview.results.symm, hview.trace.symm, hview.bus.symm, hview.phase.symm,
      fun _ => ⟨hqueue, hview.queue.symm.trans hqueue⟩⟩
  · have hg : gate s.phase = some .notInitialized := by rw [hp]; rfl
    exact ⟨_, _, exec_gated hi hinit hg, exec_gated hi hinit hg, rfl, rfl, rfl, rfl,
      fun h => absurd h hinit⟩

/-- Settles O33, by the transitions of `Update`: a code alone, work on the bus, or the head dropped and
work on the bus. -/
theorem updateFrame : Obligations.UpdateFrame := by
  intro s t ht
  cases exec_transition ht with
  | transfer hi => cases hi
  | append hi => cases hi
  | code _ code =>
    exact ⟨rfl, rfl, rfl, fun _ => rfl, .inl rfl, .inl ⟨rfl, rfl⟩, code, rfl⟩
  | busyDevice _ hu =>
    obtain ⟨evs, n, _, rfl⟩ := hu
    exact ⟨rfl, rfl, rfl, fun _ => rfl, .inl rfl, .inl ⟨rfl, rfl⟩, .ok, rfl⟩
  | send _ hc hu =>
    obtain ⟨evs, n, _, rfl⟩ := hu
    exact ⟨rfl, rfl, rfl, fun _ => rfl, .inl rfl, .inr ⟨rfl, Nat.sub_add_cancel hc⟩, .ok, rfl⟩
  | illegalTag _ hc _ _ hu =>
    obtain ⟨evs, n, _, rfl⟩ := hu
    exact ⟨rfl, rfl, rfl, fun _ => rfl, .inr rfl, .inr ⟨rfl, Nat.sub_add_cancel hc⟩,
      .protocolFault, rfl⟩

/-- Settles O36: the bring-up, then three set-up bytes, each with its own stretch of status reads. -/
theorem initSucceedsWhenTheDeviceBecomesReady :
    Obligations.InitSucceedsWhenTheDeviceBecomesReady := by
  intro s a b c hp ha hb hc hready
  have hsetUp := State.setUp_setupBytes_ready s.resetQueue (bringUpEvents s.params)
    ⟨.low, .low, .output, .nibble 0b0010, .low⟩ ha hb hc hready
  rw [← State.bringUp_resetQueue] at hsetUp
  have hbringUp : (bringUpEvents s.params).length = 24 := rfl
  refine ⟨_, execInit_uninit s hp hsetUp, rfl, rfl, rfl, ?_, ?_, rfl⟩
  · simp only [if_true, State.returns_trace, State.setPhase_trace, State.onBus_trace,
      State.resetQueue_trace, State.setUpEvents, List.append_assoc]
    rfl
  · simp only [if_true, State.returns_trace, State.setPhase_trace, State.onBus_trace,
      State.resetQueue_trace, List.length_append, State.setUpEvents_length, hbringUp]
    omega

/-- Settles O51: the prologues give the refusals, the transitions the two changes of phase. -/
theorem lifeCycle : Obligations.LifeCycle := by
  refine ⟨fun i s hi hne hp => exec_gated hi hne (by rw [hp]; rfl),
    fun s hp => exec_init_gated (by rw [hp]; rfl), fun i s hi hp => ?_, fun i s t ht => ?_, rfl⟩
  · by_cases hinit : i = .init
    · subst hinit
      exact exec_init_gated (by rw [hp]; rfl)
    · exact exec_gated hi hinit (by rw [hp]; rfl)
  · cases exec_transition ht with
    | transfer _ hu => exact .inl hu.phase
    | code => exact .inl rfl
    | append => exact .inl (State.appendAll_phase _ s)
    | busyDevice _ hu => exact .inl hu.phase
    | send _ _ hu => exact .inl hu.phase
    | illegalTag hp => exact .inr (.inr ⟨rfl, hp, rfl⟩)
    | initReady hp => exact .inr (.inl ⟨rfl, hp, rfl⟩)
    | initBusy _ hu => exact .inl hu.phase

/-- Settles O53: of the transitions, only an append adds entries, only `Update` drops the head, and
only `Init` drops all. -/
theorem entriesAreNeverMutated : Obligations.EntriesAreNeverMutated := by
  intro i s t hi _ _ ht
  have noneAdded (q : List (Option Entry)) : q = q ++ ([] : List Entry).map some :=
    (List.append_nil q).symm
  have dropped : s.dropHead.queue = s.queue.drop 1 := by rw [State.dropHead_queue, List.drop_one]
  have emptied : s.resetQueue.queue = s.queue.drop s.count := by
    rw [← s.queue_length, List.drop_length]
    rfl
  cases exec_transition ht with
  | transfer hi' => cases hi.symm.trans hi'
  | code => exact ⟨0, [], noneAdded s.queue, .inl rfl⟩
  | append _ _ hroom => exact ⟨0, appends i, State.appendAll_queue _ s hroom, .inl rfl⟩
  | busyDevice _ hu => exact ⟨0, [], hu.queue.trans (noneAdded _), .inl rfl⟩
  | send _ _ hu =>
    exact ⟨1, [], (hu.queue.trans dropped).trans (noneAdded _), .inr (.inl ⟨rfl, rfl, rfl⟩)⟩
  | illegalTag _ _ _ _ hu =>
    exact ⟨1, [], (hu.queue.trans dropped).trans (noneAdded _), .inr (.inl ⟨rfl, rfl, rfl⟩)⟩
  | initReady _ hu =>
    exact ⟨s.count, [], (hu.queue.trans emptied).trans (noneAdded _), .inr (.inr ⟨rfl, rfl, rfl⟩)⟩
  | initBusy _ hu =>
    exact ⟨s.count, [], (hu.queue.trans emptied).trans (noneAdded _), .inr (.inr ⟨rfl, rfl, rfl⟩)⟩

/-- Settles O57: the only fault is that of a head out of range. -/
theorem soundStatesNeverFault : Obligations.SoundStatesNeverFault := by
  intro s f h hf
  rcases step_cases s with ⟨_, hn⟩ | ⟨p, rest, i, _, _, hn⟩ | ⟨p, rest, e, _, _, hn⟩ <;>
    rw [hn] at hf
  · cases hf
  · obtain ⟨_, hh⟩ := exec_fault hf
    exact absurd h.head_lt (Nat.not_lt.mpr hh)
  · cases p <;> cases hf

/-- Settles O44: the nibbles are the halves of the byte the fields make. -/
theorem statusTransferReadsTwoNibbles : Obligations.StatusTransferReadsTwoNibbles := by
  intro flag unused s
  refine ⟨_, rfl, ⟨highNibble (BitVec.ofBool flag ++ unused), lowNibble (BitVec.ofBool flag ++ unused),
    joinNibbles_halves _, ?_⟩, ?_⟩
  · rw [State.emitAll_eq]
    rfl
  · rw [State.emitAll_eq]
    rfl

end Sys2Proof.Machine

/-! Proof of the statement on the storage space (20_memory.md): what `Init` leaves as it was. -/

namespace Sys2Proof.Machine

/-- Settles O40, by the transitions of `Init`: a code alone in every phase, or, in `UNINIT` only, the
ring emptied with its slots left as they were, and work on the bus. -/
theorem initFrame : Obligations.InitFrame := by
  intro s t ht
  cases exec_transition ht with
  | transfer hi => cases hi
  | append hi => cases hi
  | code _ code =>
    exact ⟨rfl, rfl, rfl, fun _ => rfl, fun _ => ⟨rfl, rfl, rfl, rfl, rfl, rfl, rfl⟩, code, rfl⟩
  | initReady hp hu =>
    obtain ⟨evs, n, _, rfl⟩ := hu
    exact ⟨rfl, rfl, rfl, fun _ => rfl, fun h => absurd hp h, .ok, rfl⟩
  | initBusy hp hu =>
    obtain ⟨evs, n, _, rfl⟩ := hu
    exact ⟨rfl, rfl, rfl, fun _ => rfl, fun h => absurd hp h, .hardwareFault, rfl⟩

end Sys2Proof.Machine

/-! Proofs of the statements on the encoding (30_encoding.md): the decoder and the encoder undo each
other in every format, which words decode, and the transfers as what their own words say. -/

namespace Sys2Proof.Machine

/-! ## Decoding by format -/

theorem decode_host32_eq_ok {w : HostWord} {str : List Byte} {i : Instr} :
    decode (.host32 w str) = .ok i ↔ decodeHost w str = some i := by
  rw [decode_host32]
  cases decodeHost w str <;> simp

theorem decode_host32_eq_illegal {w : HostWord} {str : List Byte} :
    decode (.host32 w str) = .error .illegalOperation ↔ decodeHost w str = none := by
  rw [decode_host32]
  cases decodeHost w str <;> simp

theorem decode_entry16_eq_ok {w : EntryWord} {i : Instr} :
    decode (.entry16 w) = .ok i ↔ ∃ e, decodeEntry w = some e ∧ e.toInstr = i := by
  unfold decode
  cases h : decodeEntry w <;> simp [h]

theorem decode_bus10_eq_ok {w : BusWord} {i : Instr} :
    decode (.bus10 w) = .ok i ↔ decodeBus w = some i := by
  unfold decode
  cases h : decodeBus w <;> simp [h]

theorem decode_nib6_eq_ok {w : NibbleWord} {i : Instr} :
    decode (.nib6 w) = .ok i ↔ decodeNibble w = some i := by
  unfold decode
  cases h : decodeNibble w <;> simp [h]

/-! ## Host words (R81 to R84) -/

/-- A host word that decodes is the word of a host operation, and only `PutString` keeps the operand
that came with it. -/
theorem encode_of_decodeHost {w : HostWord} {str : List Byte} {i : Instr}
    (h : decodeHost w str = some i) :
    isHostOp i = true ∧ encode i = .host32 w (if (opField w).toNat = 6 then str else []) := by
  have hrsv : rsvField w = 0 := by
    by_contra hrsv
    rw [decodeHost, if_neg hrsv] at h
    cases h
  obtain ⟨op, b, a, rfl⟩ : ∃ op b a, w = hostWord op b a :=
    ⟨_, _, _, (hostWord_fields w hrsv).symm⟩
  have hop : op = BitVec.ofNat 8 op.toNat := (BitVec.ofNat_toNat 8 op).symm
  rw [decodeHost_hostWord] at h
  rw [opField_hostWord]
  split at h
  case h_10 => cases h
  all_goals
    rename_i hn
    rw [hn] at hop
    subst hop
  case h_1 | h_2 | h_3 | h_4 | h_7 =>
    obtain ⟨⟨rfl, rfl⟩, hi⟩ := Option.ite_none_right_eq_some.mp h
    cases hi
    exact ⟨rfl, rfl⟩
  case h_6 =>
    obtain ⟨rfl, hi⟩ := Option.ite_none_right_eq_some.mp h
    cases hi
    exact ⟨rfl, rfl⟩
  case h_5 | h_8 | h_9 =>
    cases h
    exact ⟨rfl, rfl⟩

/-- R83 over the fields: above the nine rows nothing decodes, and a row's own zero fields decide. -/
theorem decodeHost_eq_none_iff (w : HostWord) (str : List Byte) :
    decodeHost w str = none ↔
      (8 < (opField w).toNat ∨ (rsvField w).toNat ≠ 0 ∨
        ((opField w).toNat ∈ [0, 1, 2, 3, 6] ∧ ¬((bField w).toNat = 0 ∧ (aField w).toNat = 0)) ∨
        ((opField w).toNat = 5 ∧ (bField w).toNat ≠ 0)) := by
  simp only [decodeHost, byte_eq_zero_iff]
  generalize (opField w).toNat = op
  split
  next hrsv =>
    split
    case h_10 =>
      simp only [imp_false] at *
      have hop : 8 < op := by omega
      simp [hop]
    all_goals simp [hrsv]
  next hrsv => simp [hrsv]

/-- The two argument fields are the low half of the word. -/
theorem argument_fields_zero_iff (w : HostWord) :
    ((bField w).toNat = 0 ∧ (aField w).toNat = 0) ↔ w.toNat % 2 ^ 16 = 0 := by
  rw [bField_toNat, aField_toNat]
  omega

/-! ## Storage words (R87) -/

theorem tag_append_payload (w : EntryWord) :
    (w.extractLsb' 8 8 ++ w.extractLsb' 0 8 : BitVec (8 + 8)) = w := by
  refine BitVec.eq_of_toNat_eq ?_
  rw [append_toNat, tag_toNat, payload_toNat]
  omega

theorem entryWord_of_decodeEntry {w : EntryWord} {e : Entry} (h : decodeEntry w = some e) :
    entryWord e = w := by
  unfold decodeEntry at h
  split at h
  next htag =>
    cases h
    rw [entryWord, ← htag]
    exact tag_append_payload w
  next =>
    obtain ⟨htag, he⟩ := Option.ite_none_right_eq_some.mp h
    cases he
    rw [entryWord, ← htag]
    exact tag_append_payload w

theorem encode_toInstr (e : Entry) : encode e.toInstr = .entry16 (entryWord e) := by
  cases e <;> rfl

theorem payload_eq_ofNat (w : EntryWord) : w.extractLsb' 0 8 = BitVec.ofNat 8 (w.toNat % 256) := by
  rw [← payload_toNat, BitVec.ofNat_toNat, BitVec.setWidth_eq]

theorem decodeEntry_tagCommand {w : EntryWord} (h : w.toNat / 256 = 0) :
    decodeEntry w = some (.command (BitVec.ofNat 8 (w.toNat % 256))) := by
  rw [decodeEntry, if_pos ((tag_eq_iff w).1.mpr h), payload_eq_ofNat]

theorem decodeEntry_tagData {w : EntryWord} (h : w.toNat / 256 = 1) :
    decodeEntry w = some (.data (BitVec.ofNat 8 (w.toNat % 256))) := by
  rw [decodeEntry, if_neg (by rw [(tag_eq_iff w).1]; omega), if_pos ((tag_eq_iff w).2.mpr h),
    payload_eq_ofNat]

theorem decodeEntry_tagOther {w : EntryWord} (h : 1 < w.toNat / 256) : decodeEntry w = none := by
  rw [decodeEntry, if_neg (by rw [(tag_eq_iff w).1]; omega),
    if_neg (by rw [(tag_eq_iff w).2]; omega)]

/-- The tags are 0 and 1, so the tag's lowest bit is the RS level. -/
theorem entryWord_getLsbD_eight (e : Entry) : (entryWord e).getLsbD 8 = e.rs := by
  cases e with
  | command b => simp only [entryWord, BitVec.getLsbD_append]; rfl
  | data b => simp only [entryWord, BitVec.getLsbD_append]; rfl

/-! ## Bus words (R89 to R94) -/

theorem busWord_fields (w : BusWord) :
    busWord (w.getLsbD 9) (w.getLsbD 8) (w.extractLsb' 0 8) = w := by
  refine BitVec.eq_of_getLsbD_eq fun i hi => ?_
  simp only [busWord, BitVec.getLsbD_append, BitVec.getLsbD_ofBool]
  interval_cases i <;> simp

theorem encode_displayControl_of_mask : ∀ d : Byte, d &&& 0xFC = 0x0C →
    encode (.displayControl (d.getLsbD 1) (d.getLsbD 0)) = .bus10 (busWord false false d) := by
  decide

theorem encode_displayShift_of_mask : ∀ d : Byte, d &&& 0xFB = 0x18 →
    encode (.displayShift (d.getLsbD 2)) = .bus10 (busWord false false d) := by decide

theorem encode_setDdramAddress_of_bit : ∀ d : Byte, d.getLsbD 7 = true →
    encode (.setDdramAddress (d.extractLsb' 0 7)) = .bus10 (busWord false false d) := by decide

/-- A command byte that decodes is the byte of its transfer, by the row of the table it lies in. -/
theorem encode_of_decodeBusCommand {d : Byte} {i : Instr} (h : decodeBusCommand d = some i) :
    encode i = .bus10 (busWord false false d) := by
  unfold decodeBusCommand at h
  split_ifs at h with hclear hhome hstyle hshift hfunction haddress <;> cases h
  · rw [hclear]; rfl
  · rw [hhome]; rfl
  · exact encode_displayControl_of_mask d hstyle
  · exact encode_displayShift_of_mask d hshift
  · rw [hfunction]; rfl
  · exact encode_setDdramAddress_of_bit d haddress

theorem encode_of_decodeBus {w : BusWord} {i : Instr} (h : decodeBus w = some i) :
    encode i = .bus10 w := by
  obtain ⟨rs, rw, d, rfl⟩ : ∃ rs rw d, w = busWord rs rw d := ⟨_, _, _, (busWord_fields w).symm⟩
  rw [decodeBus_busWord] at h
  cases rs <;> cases rw
  case false.false => exact encode_of_decodeBusCommand h
  case false.true =>
    cases h
    exact congrArg (fun d => Presented.bus10 (busWord false true d)) (busy_append_unused d)
  case true.false => cases h; rfl
  case true.true => cases h

theorem encode_of_decodeNibble {w : NibbleWord} {i : Instr} (h : decodeNibble w = some i) :
    encode i = .nib6 w := by
  unfold decodeNibble at h
  split at h
  next hw =>
    cases h
    rw [hw]
    rfl
  next =>
    obtain ⟨hw, hi⟩ := Option.ite_none_right_eq_some.mp h
    cases hi
    rw [hw]
    rfl

/-! ## The round trips -/

/-- A command byte's word decodes as the byte does. -/
theorem decode_busWord_command {d : Byte} {i : Instr} (h : decodeBusCommand d = some i) :
    decode (.bus10 (busWord false false d)) = .ok i :=
  decode_bus10_eq_ok.mpr ((decodeBus_busWord false false d).trans h)

theorem decode_entryWord (e : Entry) : decode (.entry16 (entryWord e)) = .ok e.toInstr :=
  decode_entry16_eq_ok.mpr ⟨e, decodeEntry_entryWord e, rfl⟩

/-- The word of a host operation is the layout of its row, which the decoder reads back. -/
theorem decode_encode_hostOp {i : Instr} (h : isHostOp i = true) : decode (encode i) = .ok i := by
  cases i <;> simp only [isHostOp, Bool.false_eq_true] at h <;>
    exact decode_host32_eq_ok.mpr (decodeHost_hostWord _ _ _ _)

/-- Settles O9, a constructor at a time: each format's layout is read back field by field, and the
transfers with operands are finitely many. -/
theorem decodeOfEncode : Obligations.DecodeOfEncode := by
  intro i
  cases i with
  | command b => exact decode_entryWord (.command b)
  | data b => exact decode_entryWord (.data b)
  | clearDisplay => exact decode_busWord_command rfl
  | returnHome => exact decode_busWord_command rfl
  | functionSet => exact decode_busWord_command rfl
  | displayControl cursor blink =>
    exact decode_busWord_command (by revert cursor blink; decide)
  | displayShift right => exact decode_busWord_command (by revert right; decide)
  | setDdramAddress address => exact decode_busWord_command (by revert address; decide)
  | writeData c => exact decode_bus10_eq_ok.mpr (decodeBus_busWord true false c)
  | readStatus busy unused =>
    exact decode_bus10_eq_ok.mpr ((decodeBus_busWord false true _).trans
      (by revert busy unused; decide))
  | bringUp0011 => rfl
  | bringUp0010 => rfl
  | init | update | clear | home | setPosition | putChar | putString | shiftDisplay
  | setCursorStyle => exact decode_encode_hostOp rfl

/-- Settles O10, by the format of the word. A host word gives back its operand where it is
`PutString`'s and the empty one elsewhere, which is the operand that came with it. -/
theorem encodeOfDecode : Obligations.EncodeOfDecode := by
  intro p i hp h
  cases p with
  | host32 w str =>
    obtain ⟨-, he⟩ := encode_of_decodeHost (decode_host32_eq_ok.mp h)
    have hstr : (opField w).toNat = 6 ∨ str = [] := by
      simpa [wellFormedPresented, opField_toNat] using hp
    rcases hstr with hop | rfl
    · rw [he, if_pos hop]
    · rw [he, ite_self]
  | entry16 w =>
    obtain ⟨e, he, rfl⟩ := decode_entry16_eq_ok.mp h
    rw [encode_toInstr, entryWord_of_decodeEntry he]
  | bus10 w => exact encode_of_decodeBus (decode_bus10_eq_ok.mp h)
  | nib6 w => exact encode_of_decodeNibble (decode_nib6_eq_ok.mp h)

/-- Settles O7, by the fields of the word as numbers. -/
theorem hostWordIllegalExactlyWhenReserved : Obligations.HostWordIllegalExactlyWhenReserved := by
  intro w str
  constructor
  · rw [decode_host32_eq_illegal, decodeHost_eq_none_iff, argument_fields_zero_iff, opField_toNat,
      rsvField_toNat, bField_toNat]
  · intro h
    rw [Ne, decode_host32_eq_illegal, ← Ne, Option.ne_none_iff_exists'] at h
    obtain ⟨i, hi⟩ := h
    obtain ⟨hop, -⟩ := encode_of_decodeHost hi
    exact ⟨i, decode_host32_eq_ok.mpr hi, hop⟩

/-- Settles O8: the tag picks the entry, and an entry's word is its tag before its payload. -/
theorem storageWordsEncodeEntriesByTag : Obligations.StorageWordsEncodeEntriesByTag := by
  refine ⟨entryWord_getLsbD_eight, fun w => ⟨fun h => ?_, fun h => ?_, decodeEntry_tagOther⟩⟩
  · exact ⟨decodeEntry_tagCommand h, entryWord_of_decodeEntry (decodeEntry_tagCommand h)⟩
  · exact ⟨decodeEntry_tagData h, entryWord_of_decodeEntry (decodeEntry_tagData h)⟩

/-! ## Transfers run on their own -/

@[simp] theorem State.sendByte_trace (s : State) (rs : Bool) (b : Byte) :
    (s.sendByte rs b).trace = s.trace ++ byteEvents rs b := by rw [State.sendByte_eq]

@[simp] theorem State.sendByte_bus (s : State) (rs : Bool) (b : Byte) :
    (s.sendByte rs b).bus = ⟨Level.ofBool rs, .low, .output, .nibble (lowNibble b), .low⟩ := by
  rw [State.sendByte_eq]

@[simp] theorem State.sendNibble_trace (s : State) (rs : Bool) (v : Nibble) :
    (s.sendNibble rs v).trace = s.trace ++ nibbleEvents rs v := by rw [State.sendNibble_eq]

@[simp] theorem State.sendNibble_bus (s : State) (rs : Bool) (v : Nibble) :
    (s.sendNibble rs v).bus = ⟨Level.ofBool rs, .low, .output, .nibble v, .low⟩ := by
  rw [State.sendNibble_eq]

/-- A write transfer completes and sends the byte of its own word, at the word's RS level. -/
theorem exec_of_encode {i : Instr} {rs : Bool} {b : Byte}
    (h : encode i = .bus10 (busWord rs false b)) (s : State) :
    ∃ t, exec i s = .next t ∧ t.trace = s.trace ++ byteEvents rs b := by
  have hd : decodeBus (busWord rs false b) = some i :=
    decode_bus10_eq_ok.mp (h ▸ decodeOfEncode i)
  exact ⟨_, exec_busWord rs b i s hd, s.sendByte_trace rs b⟩

theorem encode_displayControl (cursor blink : Bool) : encode (.displayControl cursor blink) =
    .bus10 (busWord false false (BitVec.ofNat 8 (0x0C + 2 * cursor.toNat + blink.toNat))) := by
  cases cursor <;> cases blink <;> rfl

theorem encode_displayShift (right : Bool) : encode (.displayShift right) =
    .bus10 (busWord false false (BitVec.ofNat 8 (0x18 + 4 * right.toNat))) := by
  cases right <;> rfl

theorem encode_setDdramAddress (address : BitVec 7) : encode (.setDdramAddress address) =
    .bus10 (busWord false false (BitVec.ofNat 8 (0x80 + address.toNat))) := by
  revert address
  decide

/-- A flag below two is its own bit. -/
theorem toNat_beq_one {b : Byte} (h : b.toNat < 2) : (b == 1).toNat = b.toNat := by
  rcases byte_lt_two h with rfl | rfl <;> rfl

/-- R94: an appended entry goes over the bus as one of the table's transfers. -/
theorem appended_is_transfer {i : Instr} {e : Entry} (hi : isEncoder i = true)
    (hw : wellFormed i = true) (he : e ∈ appends i) :
    ∃ j, encode j = .bus10 (busWord e.rs false e.payload) := by
  cases i <;> simp only [isEncoder, Bool.false_eq_true] at hi
  case clear =>
    cases List.mem_singleton.mp he
    exact ⟨.clearDisplay, rfl⟩
  case home =>
    cases List.mem_singleton.mp he
    exact ⟨.returnHome, rfl⟩
  case setPosition column row =>
    cases List.mem_singleton.mp he
    exact ⟨_, encode_setDdramAddress_of_bit _ (by simp [Entry.payload])⟩
  case putChar c =>
    cases List.mem_singleton.mp he
    exact ⟨.writeData c, rfl⟩
  case putString str =>
    obtain ⟨c, -, rfl⟩ := List.mem_map.mp he
    exact ⟨.writeData c, rfl⟩
  case shiftDisplay count direction =>
    cases List.eq_of_mem_replicate he
    split
    · exact ⟨.displayShift true, rfl⟩
    · exact ⟨.displayShift false, rfl⟩
  case setCursorStyle cursorOn blinkOn =>
    obtain ⟨hc, hb⟩ : cursorOn.toNat < 2 ∧ blinkOn.toNat < 2 := by simpa [wellFormed] using hw
    cases List.mem_singleton.mp he
    refine ⟨.displayControl (cursorOn == 1) (blinkOn == 1), ?_⟩
    rw [encode_displayControl, toNat_beq_one hc, toNat_beq_one hb]
    rfl

/-- Settles O43: a byte word that decodes runs as the byte write of that word. -/
theorem transfersSendTheirOwnWord : Obligations.TransfersSendTheirOwnWord := by
  intro rs b i s h
  exact ⟨_, exec_busWord rs b i s (decode_bus10_eq_ok.mp h), s.sendByte_trace rs b,
    s.sendByte_bus rs b⟩

/-- Settles O47: the entry's word is the encoding of a transfer, so it decodes to it. -/
theorem appendedEntriesAreTableTransfers : Obligations.AppendedEntriesAreTableTransfers := by
  intro i e hi hw he
  obtain ⟨j, hj⟩ := appended_is_transfer hi hw he
  exact ⟨j, hj ▸ decodeOfEncode j, exec_of_encode hj⟩

/-- Settles O5: the step takes the word, decoding rejects it, and the refusal is its format's. -/
theorem otherWordsWithoutMeaningAreRefused : Obligations.OtherWordsWithoutMeaningAreRefused := by
  refine ⟨fun s w rest hp h => ?_, fun s w rest hp h => ?_, fun s w rest hp h => ?_⟩
  · exact step_rejects hp (e := .illegalTag) (by simp only [decode, h])
  · exact step_rejects hp (e := .noTransfer) (by simp only [decode, h])
  · exact step_rejects hp (e := .noBringUpNibble) (by simp only [decode, h])

/-- Settles O6: the legal words are encodings, read back by `decodeOfEncode`; the illegal one has a
reserved field that is not zero. -/
theorem sampleWordsDecode : Obligations.SampleWordsDecode :=
  ⟨decodeOfEncode .update, decodeOfEncode (.setPosition 3 1), rfl,
    decodeOfEncode (.putString [0x41, 0x00]), decodeOfEncode (.data 0x41),
    decodeOfEncode (.displayControl true false), decodeOfEncode (.readStatus true 0),
    decodeOfEncode .bringUp0010⟩

/-- Settles O42: the bytes of the table are those in the words of the transfers. -/
theorem transfersSendTheBytesOfTheTable : Obligations.TransfersSendTheBytesOfTheTable := by
  intro s
  exact ⟨exec_of_encode rfl s, exec_of_encode rfl s,
    fun cursor blink => exec_of_encode (encode_displayControl cursor blink) s,
    fun right => exec_of_encode (encode_displayShift right) s, exec_of_encode rfl s,
    fun address => exec_of_encode (encode_setDdramAddress address) s,
    fun c => exec_of_encode rfl s⟩

/-- Settles O45: each is one nibble write. -/
theorem bringUpNibblesAreSingle : Obligations.BringUpNibblesAreSingle :=
  fun s => ⟨⟨_, rfl, s.sendNibble_trace false _, s.sendNibble_bus false _⟩,
    ⟨_, rfl, s.sendNibble_trace false _, s.sendNibble_bus false _⟩⟩

end Sys2Proof.Machine

/-! Proofs of the statements on the queue (41_queue.md): the primitives, the order in which entries
leave, what an overflow and an encoder operation leave as it was, and `Update` as its consumer. -/

namespace Sys2Proof.Machine

/-! ## The primitives -/

theorem State.queue_eq_nil_iff (s : State) : s.queue = [] ↔ s.count = 0 := by
  rw [← s.queue_length, List.length_eq_zero_iff]

theorem State.isEmpty_iff (s : State) : s.isEmpty = true ↔ s.count = 0 := decide_eq_true_iff

theorem State.dequeue_empty {s : State} (hc : s.count = 0) : s.dequeue = .ok none :=
  if_pos (s.isEmpty_iff.mpr hc)

section Pending

variable {s : State} (hc : 0 < s.count) (hh : s.head < s.params.qcap)
include hc hh

theorem State.dequeue_pending : s.dequeue = .ok (some (s.slots.read s.head, s.dropHead)) := by
  rw [s.dequeue_eq hc, s.memRead_inRange hh]

theorem State.queue_pending : s.queue = decodeEntry (s.slots.read s.head) :: s.dropHead.queue := by
  cases hq : s.queue with
  | nil => exact absurd (s.queue_eq_nil_iff.mp hq) hc.ne'
  | cons x rest =>
    obtain ⟨-, hx⟩ := s.queue_cons hh hq
    rw [hx, State.dropHead_queue, hq, List.tail_cons]

end Pending

/-- Settles O11, a primitive at a time, each by whether it finds room or an entry. -/
theorem queuePrimitives : Obligations.QueuePrimitives := by
  refine ⟨fun s e => ⟨s.enqueue_full e, fun hroom => ?_⟩,
    fun s => s.isEmpty_iff.trans s.queue_eq_nil_iff.symm, fun s hc => State.dequeue_empty hc,
    fun s w hc hh hw => ?_, fun s es hc => ⟨fun hfull => ?_, fun hroom => ?_⟩⟩
  · exact ⟨_, s.enqueue_room e hroom, s.append_queue e hroom, rfl, Memory.read_write_same _ _ _,
      fun a ha => Memory.read_write_other _ _ ha⟩
  · subst hw
    exact ⟨_, State.dequeue_pending hc hh, State.queue_pending hc hh, rfl, Nat.sub_add_cancel hc,
      rfl⟩
  · exact s.enqueueAll_full es (by omega)
  · have hroom' : s.count + es.length ≤ s.params.qcap := by omega
    exact ⟨_, s.enqueueAll_room es hroom', State.appendAll_queue es s hroom',
      State.appendAll_count es s⟩

/-! ## Runs of the primitives -/

section QueueRun

variable {s : State} (calls : List QueueCall)

theorem queueRun_enqueueAll_room {es : List Entry} (h : s.count + es.length ≤ s.params.qcap) :
    queueRun (.enqueueAll es :: calls) s =
      { queueRun calls (State.appendAll es s) with
        accepted := es ++ (queueRun calls (State.appendAll es s)).accepted } := by
  simp only [queueRun, s.enqueueAll_room es h]

theorem queueRun_enqueueAll_full {es : List Entry} (h : s.params.qcap < s.count + es.length) :
    queueRun (.enqueueAll es :: calls) s = queueRun calls s := by
  simp only [queueRun, s.enqueueAll_full es h]

theorem queueRun_dequeue_empty (h : s.count = 0) :
    queueRun (.dequeue :: calls) s = queueRun calls s := by
  simp only [queueRun, State.dequeue_empty h]

theorem queueRun_dequeue_pending (hc : 0 < s.count) (hh : s.head < s.params.qcap) :
    queueRun (.dequeue :: calls) s =
      { queueRun calls s.dropHead with
        taken := decodeEntry (s.slots.read s.head) :: (queueRun calls s.dropHead).taken } := by
  simp only [queueRun, State.dequeue_pending hc hh]

end QueueRun

/-- No entry is lost, doubled or overtaken: what was there and then accepted, in order, is what was
taken and then is left. -/
theorem queueRun_conserves (calls : List QueueCall) (s : State) (hs : s.Inv) :
    s.queue ++ (queueRun calls s).accepted.map some =
      (queueRun calls s).taken ++ (queueRun calls s).last.queue := by
  induction calls generalizing s with
  | nil => simp [queueRun]
  | cons call calls ih =>
    cases call with
    | enqueueAll es =>
      rcases Nat.lt_or_ge s.params.qcap (s.count + es.length) with hfull | hroom
      · rw [queueRun_enqueueAll_full calls hfull]
        exact ih s hs
      · have hrest := ih _ (hs.appendAll hroom)
        rw [State.appendAll_queue es s hroom] at hrest
        rw [queueRun_enqueueAll_room calls hroom, List.map_append, ← List.append_assoc]
        exact hrest
    | dequeue =>
      rcases Nat.eq_zero_or_pos s.count with hempty | hc
      · rw [queueRun_dequeue_empty calls hempty]
        exact ih s hs
      · rw [queueRun_dequeue_pending calls hc hs.head_lt, State.queue_pending hc hs.head_lt]
        exact congrArg (_ :: ·) (ih _ hs.dropHead)

/-- Settles O12: from an empty queue the entries accepted are those taken and then those left. -/
theorem fifoLaw : Obligations.FifoLaw := by
  intro calls s hs
  have hconserves := queueRun_conserves calls s hs
  refine ⟨hconserves, fun hempty => ?_⟩
  rw [hempty, List.nil_append] at hconserves
  exact ⟨_, hconserves.symm⟩

/-! ## What an encoder operation leaves as it was -/

/-- Settles O23: an append returns `OK`, so `QueueFull` comes with no other effect. -/
theorem overflowLeavesTheQueue : Obligations.OverflowLeavesTheQueue := by
  intro i s t hi ht hfull
  rcases exec_encoder_cases i s hi with ⟨code, hn⟩ | hn <;> cases hn.symm.trans ht
  · exact ⟨rfl, rfl, rfl, rfl⟩
  · rw [State.appendAll_frame] at hfull
    simp at hfull

/-- Settles O24: a code has no other effect, and an append writes only the tail slots and the count. -/
theorem encoderFrame : Obligations.EncoderFrame := by
  intro i s t hi ht
  rcases exec_encoder_cases i s hi with ⟨code, hn⟩ | hn <;> cases hn.symm.trans ht
  · exact ⟨rfl, rfl, rfl, rfl, rfl, rfl, rfl, rfl, ⟨code, rfl⟩, .inl rfl, fun _ _ => rfl⟩
  · have hslots := State.appendAll_read_other (appends i) s
    rw [State.appendAll_frame]
    exact ⟨rfl, rfl, rfl, rfl, rfl, rfl, rfl, rfl, ⟨.ok, rfl⟩, .inr rfl, hslots⟩

/-! ## `Update` as the consumer of the queue -/

theorem statusEvents_statusAnswer_zero (s : State) :
    statusEvents (s.statusAnswer 0) = [.dirIn, .setRS false, .setRW true, .pulseEnable,
      .readNibble (s.answer 0), .pulseEnable, .readNibble (s.answer 1)] := by
  simp [statusEvents, State.statusAnswer, highNibble_joinNibbles, lowNibble_joinNibbles]

theorem State.statusReads_one (s : State) : s.statusReads 1 = statusEvents (s.statusAnswer 0) :=
  List.append_nil _

/-- Settles O29: the head's word is taken after the status read, and its tag makes it transmit
nothing. -/
theorem updateFaultsOnIllegalTag : Obligations.UpdateFaultsOnIllegalTag := by
  intro s w hp hc hh hw htag hb
  have hupdate := execUpdate_head_inRange hp hc hb hh
  rw [hw, State.transmit_illegal _ (decodeEntry_tagOther htag)] at hupdate
  refine ⟨_, hupdate, rfl, ?_, s.dropHead_queue, Nat.sub_add_cancel hc, rfl⟩
  rw [← statusEvents_statusAnswer_zero, ← s.statusReads_one]
  rfl

/-- The state after an `Update` that sends `e` as the head entry: the head dropped, and on the bus
the status read and the entry's byte. -/
def State.sent (s : State) (e : Entry) : State :=
  (s.dropHead.onBus (statusEvents (s.statusAnswer 0) ++ byteEvents e.rs e.payload)
    ⟨Level.ofBool e.rs, .low, .output, .nibble (lowNibble e.payload), .low⟩ 2).returns
      (.operation .update) .ok

@[simp] theorem State.sent_trace (s : State) (e : Entry) : (s.sent e).trace =
    s.trace ++ (statusEvents (s.statusAnswer 0) ++ byteEvents e.rs e.payload) := rfl

@[simp] theorem State.sent_queue (s : State) (e : Entry) : (s.sent e).queue = s.queue.tail :=
  s.dropHead_queue

/-- The status read has used up the first answer. -/
@[simp] theorem State.sent_statusAnswer (s : State) (e : Entry) (k : Nat) :
    (s.sent e).statusAnswer k = s.statusAnswer (k + 1) :=
  (s.statusAnswer_onBus [] s.bus 1 k).trans (congrArg _ (Nat.add_comm 1 k))

theorem execUpdate_sends {s : State} {e : Entry} {rest : List (Option Entry)} (hp : s.phase = .ready)
    (hh : s.head < s.params.qcap) (hq : s.queue = some e :: rest)
    (hb : busy (s.statusAnswer 0) = false) : exec .update s = .next (s.sent e) := by
  obtain ⟨hc, he⟩ := s.queue_cons hh hq
  have hread : (s.afterReads 1).dropHead = s.dropHead.onBus (statusEvents (s.statusAnswer 0))
      ⟨.low, .high, .input, s.bus.d, .low⟩ 2 := by
    rw [← s.statusReads_one]
    rfl
  rw [execUpdate_head_inRange hp hc hb hh, State.transmit_legal _ he, State.sendEntry_eq,
    State.sendByte_onBus, hread, State.onBus_onBus]
  rfl

theorem runAll_cons {i : Instr} {is : List Instr} {s t : State} (h : exec i s = .next t) :
    runAll (i :: is) s = runAll is t := by simp only [runAll, h]

/-- What a device that reports ready at every call sees while `es` leaves the queue: for each entry
the status read and the entry's byte. -/
def State.drainEvents (s : State) (es : List Entry) : List BusEvent :=
  es.zipIdx.flatMap fun p => statusEvents (s.statusAnswer p.2) ++ byteEvents p.1.rs p.1.payload

/-- The first entry takes the first status answer, and the others the answers after its sending. -/
theorem State.drainEvents_cons (s : State) (e : Entry) (es : List Entry) :
    s.drainEvents (e :: es) =
      statusEvents (s.statusAnswer 0) ++ byteEvents e.rs e.payload ++ (s.sent e).drainEvents es := by
  simp [State.drainEvents, List.zipIdx_succ, List.flatMap_map]

/-- Settles O35, by induction on the entries: one `Update` sends the first and leaves a state of the
same kind, whose status answers are those from the second on. -/
theorem readyDeviceDrainsInOrder : Obligations.ReadyDeviceDrainsInOrder := by
  intro es
  induction es with
  | nil => exact fun s _ _ hq _ => ⟨s, rfl, hq, (List.append_nil _).symm⟩
  | cons e es ih =>
    intro s hp hh hq hready
    have hqueue : (s.sent e).queue = es.map some := by rw [State.sent_queue, hq]; rfl
    have hready' : ∀ k < es.length, busy ((s.sent e).statusAnswer k) = false := fun k hk => by
      rw [State.sent_statusAnswer]
      exact hready (k + 1) (Nat.succ_lt_succ hk)
    obtain ⟨t, hrun, hempty, htrace⟩ :=
      ih (s.sent e) hp (Nat.mod_lt _ (Nat.zero_lt_of_lt hh)) hqueue hready'
    refine ⟨t, ?_, hempty, ?_⟩
    · exact (runAll_cons (execUpdate_sends hp hh hq (hready 0 (Nat.succ_pos _)))).trans hrun
    · calc t.trace = (s.sent e).trace ++ (s.sent e).drainEvents es := htrace
        _ = s.trace ++ s.drainEvents (e :: es) := by
          rw [State.sent_trace, State.drainEvents_cons, List.append_assoc]

end Sys2Proof.Machine

/-! Proofs of the statements on the encoder (42_encoder.md): the contract of each operation, the first
cause that decides its code, and what its answer depends on. -/

namespace Sys2Proof.Machine

/-! ## The first cause in `READY` -/

section FirstCause

variable {i : Instr} {s : State} (hp : s.phase = .ready)
include hp

theorem firstCause_illFormed (hw : wellFormed i = false) : firstCause i s = validationCode i := by
  simp [firstCause, hp, hw]

theorem firstCause_full (hw : wellFormed i = true)
    (hfull : s.params.qcap - s.count < (appends i).length) : firstCause i s = .queueFull := by
  simp [firstCause, hp, hw, hfull]

theorem firstCause_room (hw : wellFormed i = true)
    (hroom : (appends i).length ≤ s.params.qcap - s.count) : firstCause i s = .ok := by
  simp [firstCause, hp, hw, Nat.not_lt.mpr hroom]

end FirstCause

/-! ## What an encoder operation answers, by its first cause -/

section Outcome

variable {i : Instr} {s : State} (hi : isEncoder i = true) (hc : s.count ≤ s.params.qcap)
include hi hc

theorem exec_encoder_refuses {code : ResultCode} (hcause : firstCause i s = code)
    (hne : code ≠ .ok) : exec i s = .next (s.returns (.operation i) code) := by
  subst hcause
  rcases exec_encoder_firstCause s hi with ⟨code, hn, hcode⟩ | ⟨_, _, hok, _⟩
  · obtain ⟨rfl, _⟩ := hcode hc
    exact hn
  · exact absurd hok hne

theorem exec_encoder_gated {code : ResultCode} (hg : gate s.phase = some code) :
    exec i s = .next (s.returns (.operation i) code) := by
  obtain ⟨hcause, hne⟩ := firstCause_of_gate hg
  exact exec_encoder_refuses hi hc hcause hne

/-- The prologue's part of the contract: the two phases other than `READY`. -/
theorem exec_encoder_notReady :
    (s.phase = .faulted → exec i s = .next (s.returns (.operation i) .protocolFault)) ∧
    (s.phase = .uninit → exec i s = .next (s.returns (.operation i) .notInitialized)) :=
  ⟨fun hp => exec_encoder_gated hi hc (hp ▸ rfl), fun hp => exec_encoder_gated hi hc (hp ▸ rfl)⟩

theorem exec_encoder_appends (hcause : firstCause i s = .ok) :
    s.count + (appends i).length ≤ s.params.qcap ∧
      exec i s = .next ((State.appendAll (appends i) s).returns (.operation i) .ok) := by
  rcases exec_encoder_firstCause s hi with ⟨code, _, hcode⟩ | ⟨_, hroom, _, hn⟩
  · obtain ⟨rfl, hne⟩ := hcode hc
    exact absurd hcause hne
  · exact ⟨hroom, hn⟩

end Outcome

@[simp] theorem State.appendAll_results (es : List Entry) (s : State) :
    (State.appendAll es s).results = s.results := (s.progress_appendAll es).results

/-- The entries an operation gives the queue in a state: those it appends where no cause stops it. -/
def appended (i : Instr) (s : State) : List Entry :=
  if firstCause i s = .ok then appends i else []

/-- An encoder operation returns the code of its first cause and gives the queue its `appended`
entries. -/
theorem exec_encoder_answer {i : Instr} {s : State} (hi : isEncoder i = true)
    (hc : s.count ≤ s.params.qcap) :
    ∃ t, exec i s = .next t ∧ t.results = s.results ++ [⟨.operation i, firstCause i s⟩] ∧
      t.queue = s.queue ++ (appended i s).map some := by
  by_cases hcause : firstCause i s = .ok
  · obtain ⟨hroom, hn⟩ := exec_encoder_appends hi hc hcause
    refine ⟨_, hn, by simp [hcause], ?_⟩
    rw [appended, if_pos hcause, ← State.appendAll_queue _ s hroom]
    rfl
  · refine ⟨_, exec_encoder_refuses hi hc rfl hcause, rfl, ?_⟩
    rw [appended, if_neg hcause, List.map_nil, List.append_nil]
    rfl

/-- The phase, the room and the operands decide the first cause. -/
theorem firstCause_congr {i : Instr} {s s' : State} (hphase : s.phase = s'.phase)
    (hroom : s.params.qcap - s.count < (appends i).length ↔
      s'.params.qcap - s'.count < (appends i).length) : firstCause i s = firstCause i s' := by
  simp only [firstCause, hphase, hroom]

/-! ## The contract -/

section Contract

variable {i : Instr} (hi : isEncoder i = true)
include hi

/-- Operands in their domain: the contract with the entries the operation appends. -/
theorem encoderContract_wellFormed {es : List Entry} (hw : wellFormed i = true)
    (hes : appends i = es) : EncoderContract i none es := by
  subst hes
  intro s _ hc
  obtain ⟨hfaulted, huninit⟩ := exec_encoder_notReady hi hc
  refine ⟨hfaulted, huninit, fun hp => ⟨fun hfull => ?_, fun hroom => ?_⟩⟩
  · exact exec_encoder_refuses hi hc (firstCause_full hp hw hfull) (by decide)
  · obtain ⟨hroom', hn⟩ := exec_encoder_appends hi hc (firstCause_room hp hw hroom)
    exact ⟨_, hn, State.appendAll_queue _ s hroom', State.appendAll_count _ s, by simp,
      by simp [hp], State.appendAll_trace _ s, State.appendAll_bus _ s⟩

/-- Operands outside their domain: the contract with the validation's code. -/
theorem encoderContract_illFormed {code : ResultCode} (hw : wellFormed i = false)
    (hcode : validationCode i = code) : EncoderContract i (some code) [] := by
  subst hcode
  intro s _ hc
  obtain ⟨hfaulted, huninit⟩ := exec_encoder_notReady hi hc
  exact ⟨hfaulted, huninit, fun hp =>
    exec_encoder_refuses hi hc (firstCause_illFormed hp hw) (validationCode_ne_ok hw)⟩

end Contract

/-! ## The words of the operations -/

/-- A host word given by its layout decodes to what the decoder reads from its fields. -/
theorem decode_hostWord {op b a : Byte} {str : List Byte} {i : Instr}
    (h : decodeHost (hostWord op b a) str = some i) :
    decode (.host32 (hostWord op b a) str) = .ok i := decode_host32_eq_ok.mpr h

/-! ## The Set-DDRAM-address command (R133, R140) -/

theorem setAddress_bit_or {n : Nat} (h : n < 128) :
    0x80#8 ||| BitVec.ofNat 8 n = BitVec.ofNat 8 (0x80 + n) := by
  revert n
  decide

theorem rowBase_eq {row : Byte} (h : row.toNat < 2) : rowBase row = 0x40 * row.toNat := by
  rcases byte_lt_two h with rfl | rfl <;> rfl

theorem setAddressByte_toNat (column row : Byte) :
    (setAddressByte column row).toNat = 0x80 + ddramAddress column row := by
  have hlt : ddramAddress column row < 128 := by
    rw [ddramAddress_eq]
    exact Nat.mod_lt _ (by decide)
  rw [setAddressByte, show (0x80 : Byte) = 0x80#8 from rfl, setAddress_bit_or hlt,
    BitVec.toNat_ofNat]
  omega

theorem appends_setPosition (column row : Byte) : appends (.setPosition column row) =
    [.command (BitVec.ofNat 8 (0x80 + (rowBase row + column.toNat) % 128))] := by
  rw [← setAddress_bit_or (Nat.mod_lt _ (by decide))]
  rfl

/-! ## The string of `PutString` (R135) -/

theorem appends_putString_terminated {pre : List Byte} (post : List Byte) (h : 0x00 ∉ pre) :
    appends (.putString (pre ++ 0x00 :: post)) = pre.map .data := by
  have hpre : ∀ c ∈ pre, (c != 0x00) = true := fun c hc => bne_iff_ne.mpr fun h0 => h (h0 ▸ hc)
  rw [appends, List.takeWhile_append_of_pos hpre, List.takeWhile_cons_of_neg (by decide),
    List.append_nil]

theorem wellFormed_putString_iff (str : List Byte) :
    wellFormed (.putString str) = true ↔ 0x00 ∈ str := by
  simp [wellFormed, ← byte_eq_zero_iff]

/-! ## The obligations -/

/-- Settles O13: the word is the encoding of `Clear`, which no validation refuses. -/
theorem clearAppendsItsCommand : Obligations.ClearAppendsItsCommand :=
  ⟨fun str => decode_hostWord (decodeHost_hostWord 0x02 0 0 str),
    encoderContract_wellFormed rfl rfl rfl⟩

/-- Settles O14: the word is the encoding of `Home`, which no validation refuses. -/
theorem homeAppendsItsCommand : Obligations.HomeAppendsItsCommand :=
  ⟨fun str => decode_hostWord (decodeHost_hostWord 0x03 0 0 str),
    encoderContract_wellFormed rfl rfl rfl⟩

/-- Settles O15: the row's base is 0x00 or 0x40, and a row above 1 is outside the domain. -/
theorem setPositionAppendsTheAddress : Obligations.SetPositionAppendsTheAddress := by
  refine ⟨fun column row str => decode_hostWord (decodeHost_hostWord 0x04 row column str),
    fun column => encoderContract_wellFormed rfl rfl ?_,
    fun column => encoderContract_wellFormed rfl rfl (appends_setPosition column 1),
    fun column row hrow => encoderContract_illFormed rfl ?_ rfl⟩
  · rw [appends_setPosition, show rowBase 0 = 0 from rfl, Nat.zero_add]
  · exact decide_eq_false (Nat.not_lt.mpr hrow)

/-- Settles O16: the mask is a remainder, and a sum below 128 is its own remainder. -/
theorem setPositionAddressArithmetic : Obligations.SetPositionAddressArithmetic := by
  intro column row hrow
  have haddress : ddramAddress column row = (0x40 * row.toNat + column.toNat) % 128 := by
    rw [ddramAddress_eq, rowBase_eq hrow]
  refine ⟨haddress, ?_, fun hcolumn => ⟨?_, ?_⟩⟩
  · rw [haddress, Nat.mod_mod_of_dvd _ (by decide)]
  · omega
  · rw [setAddressByte_toNat]
    omega

/-- Settles O17: the word has the byte in `A`, and no validation refuses it. -/
theorem putCharAppendsItsByte : Obligations.PutCharAppendsItsByte :=
  ⟨fun c str => decode_hostWord (decodeHost_hostWord 0x05 0 c str),
    fun _ => encoderContract_wellFormed rfl rfl rfl⟩

/-- Settles O18: an operand is in the domain where it holds a terminator, and the entries stop at the
first. -/
theorem putStringAppendsTheString : Obligations.PutStringAppendsTheString := by
  refine ⟨fun str => decode_hostWord (decodeHost_hostWord 0x06 0 0 str), fun pre post hpre => ?_,
    fun str hstr => ?_⟩
  · exact encoderContract_wellFormed rfl ((wellFormed_putString_iff _).mpr (by simp))
      (appends_putString_terminated post hpre)
  · exact encoderContract_illFormed rfl
      (Bool.eq_false_iff.mpr fun h => hstr ((wellFormed_putString_iff str).mp h)) rfl

/-- Settles O19: the direction picks the byte, `count` repeats it, and a direction above 1 is outside
the domain. -/
theorem shiftDisplayRepeatsItsCommand : Obligations.ShiftDisplayRepeatsItsCommand :=
  ⟨fun count direction str => decode_hostWord (decodeHost_hostWord 0x07 direction count str),
    fun _ => encoderContract_wellFormed rfl rfl rfl,
    fun _ => encoderContract_wellFormed rfl rfl rfl,
    fun _ _ hdir => encoderContract_illFormed rfl (decide_eq_false (Nat.not_lt.mpr hdir)) rfl⟩

/-- Settles O20: each pair of flags gives its byte, and a flag above 1 is outside the domain. -/
theorem setCursorStyleAppendsTheControlByte : Obligations.SetCursorStyleAppendsTheControlByte := by
  refine ⟨fun cursorOn blinkOn str =>
      decode_hostWord (decodeHost_hostWord 0x08 blinkOn cursorOn str),
    encoderContract_wellFormed rfl rfl rfl, encoderContract_wellFormed rfl rfl rfl,
    encoderContract_wellFormed rfl rfl rfl, encoderContract_wellFormed rfl rfl rfl,
    fun cursorOn blinkOn hflags => encoderContract_illFormed rfl ?_ rfl⟩
  simp only [wellFormed, Bool.and_eq_false_iff, decide_eq_false_iff_not, Nat.not_lt]
  exact hflags

/-- Settles O21: the answer of an encoder operation carries the code of its first cause. -/
theorem encodersReportTheFirstCause : Obligations.EncodersReportTheFirstCause := by
  intro i s hi hc
  obtain ⟨t, hn, hresults, _⟩ := exec_encoder_answer hi hc
  exact ⟨t, hn, hresults⟩

/-- Settles O22: a code has no other effect, and an append writes only slots and the count. -/
theorem encodersNeverTouchTheBus : Obligations.EncodersNeverTouchTheBus := by
  intro i s hi
  rcases exec_encoder_cases i s hi with ⟨code, hn⟩ | hn
  · exact ⟨_, hn, rfl, rfl⟩
  · exact ⟨_, hn, State.appendAll_trace _ s, State.appendAll_bus _ s⟩

/-- Settles O25: the code and the entries are functions of the first cause and the operands. -/
theorem encodersDependOnPhaseRoomAndOperands : Obligations.EncodersDependOnPhaseRoomAndOperands := by
  intro i s s' hi _ _ hc hc' hphase hroom
  have hcause := firstCause_congr hphase hroom
  have happended : appended i s = appended i s' := by simp only [appended, hcause]
  obtain ⟨t, hn, hresults, hqueue⟩ := exec_encoder_answer hi hc
  obtain ⟨t', hn', hresults', hqueue'⟩ := exec_encoder_answer hi hc'
  exact ⟨t, t', firstCause i s, appended i s, hn, hn', hresults, hcause ▸ hresults', hqueue,
    happended ▸ hqueue'⟩

end Sys2Proof.Machine

/-! Proofs of the statements on the scheduler (43_scheduler.md): what one `Update` emits and removes, in
each case, and the frame of the transfers it is made of. -/

namespace Sys2Proof.Machine

/-! ## The events of one `Update` -/

theorem writeNibble_not_mem_statusEvents (status : Byte) (v : Nibble) :
    BusEvent.writeNibble v ∉ statusEvents status := by simp [statusEvents]

theorem readNibble_not_mem_byteEvents (rs : Bool) (b : Byte) (v : Nibble) :
    BusEvent.readNibble v ∉ byteEvents rs b := by simp [byteEvents, nibbleEvents]

theorem statusEvents_length (status : Byte) : (statusEvents status).length = 7 := rfl

theorem byteEvents_length (rs : Bool) (b : Byte) : (byteEvents rs b).length = 10 := rfl

@[simp] theorem State.afterReads_one_trace (s : State) :
    (s.afterReads 1).trace = s.trace ++ statusEvents (s.statusAnswer 0) :=
  congrArg _ s.statusReads_one

/-- The units of work of an `Update` that completes (43_scheduler.md rule R178). -/
inductive UpdateWork (s : State) : State → Prop where
  /-- A code and no event. -/
  | codeOnly (code : ResultCode) : UpdateWork s (s.returns (.operation .update) code)
  /-- A status read and no write: the device is busy, or the head word dropped after it has an illegal
  tag. -/
  | statusOnly {t} (htrace : t.trace = s.trace ++ statusEvents (s.statusAnswer 0))
    (hcount : t.count = s.count ∨ t.count + 1 = s.count) : UpdateWork s t
  /-- A status read that finds the device ready, and the head entry sent. -/
  | sends (hc : 0 < s.count) (hb : busy (s.statusAnswer 0) = false) (e : Entry) :
    UpdateWork s (s.sent e)

theorem execUpdate_work {s t : State} (ht : exec .update s = .next t) : UpdateWork s t := by
  rcases execUpdate_cases s with ⟨code, _, hn⟩ | ⟨_, _, hn⟩ | ⟨_, _, _, hn⟩ | ⟨_, _, _, f, _, hn⟩ |
    ⟨hp, hc, hb, w, hw, hn⟩
  · cases hn.symm.trans ht
    exact .codeOnly code
  · cases hn.symm.trans ht
    exact .codeOnly .ok
  · cases hn.symm.trans ht
    exact .statusOnly s.afterReads_one_trace (.inl rfl)
  · cases hn.symm.trans ht
  · obtain ⟨hh, rfl⟩ := s.memRead_ok hw
    cases he : decodeEntry (s.slots.read s.head) with
    | some e =>
      have hq := State.queue_pending hc hh
      rw [he] at hq
      cases (execUpdate_sends hp hh hq hb).symm.trans ht
      exact .sends hc hb e
    | none =>
      rw [State.transmit_illegal _ he] at hn
      cases hn.symm.trans ht
      exact .statusOnly s.afterReads_one_trace (.inr (Nat.sub_add_cancel hc))

/-! ## The obligations -/

/-- Settles O28: the sent state has every field the rule names. -/
theorem updateSendsTheHeadEntry : Obligations.UpdateSendsTheHeadEntry := by
  intro s e rest hp hh hq hb
  obtain ⟨hc, -⟩ := s.queue_cons hh hq
  refine ⟨s.sent e, execUpdate_sends hp hh hq hb, ?_, rfl, Nat.sub_add_cancel hc, hp, ?_, rfl, rfl⟩
  · rw [State.sent_queue, hq, List.tail_cons]
  · rw [State.sent_trace, statusEvents_statusAnswer_zero, List.append_assoc]
    rfl

/-- Settles O31, by the unit of work: no event, the seven of a status read, or those and the ten of a
byte. -/
theorem updateDoesAtMostOneUnitOfWork : Obligations.UpdateDoesAtMostOneUnitOfWork := by
  intro s t ht
  cases execUpdate_work ht with
  | codeOnly => exact ⟨.inl rfl, [], (List.append_nil _).symm, .inl rfl⟩
  | statusOnly htrace hcount => exact ⟨hcount, _, htrace, .inr (.inl (statusEvents_length _))⟩
  | sends hc _ e =>
    refine ⟨.inr (Nat.sub_add_cancel hc), _, s.sent_trace e, .inr (.inr ?_)⟩
    rw [List.length_append, statusEvents_length, byteEvents_length]

/-- Settles O32: of the units of work only the sending writes a nibble, and its status read, found
ready, comes first. -/
theorem updateWritesOnlyAfterReadyStatus : Obligations.UpdateWritesOnlyAfterReadyStatus := by
  rintro s t evs ht hevs ⟨v, hv⟩
  rw [← statusEvents_statusAnswer_zero]
  cases execUpdate_work ht with
  | codeOnly =>
    obtain rfl : evs = [] := List.self_eq_append_right.mp hevs
    exact absurd hv List.not_mem_nil
  | statusOnly htrace =>
    obtain rfl := List.append_cancel_left (htrace.symm.trans hevs)
    exact absurd hv (writeNibble_not_mem_statusEvents _ v)
  | sends _ hb e =>
    obtain rfl := List.append_cancel_left ((s.sent_trace e).symm.trans hevs)
    exact ⟨hb, _, rfl, readNibble_not_mem_byteEvents _ _⟩

/-- Settles O46: such an instruction only emits events. -/
theorem transferFrame : Obligations.TransferFrame := by
  intro i s t hi ht
  obtain ⟨evs, hn, -⟩ := exec_transfer i s hi
  cases hn.symm.trans ht
  rw [State.emitAll_eq]
  exact ⟨rfl, rfl, rfl, fun _ => rfl, rfl, rfl, rfl, rfl, rfl, rfl⟩

/-- Settles O26: the empty test comes before the status read. -/
theorem updateOnEmptyQueueDoesNothing : Obligations.UpdateOnEmptyQueueDoesNothing :=
  fun _ => execUpdate_empty

/-- Settles O27: a busy answer ends the call right after its status read. -/
theorem updateWhileBusyOnlyReadsStatus : Obligations.UpdateWhileBusyOnlyReadsStatus := by
  intro s hp hc hb
  refine ⟨_, execUpdate_busy hp hc hb, ?_, rfl, rfl, rfl, rfl, hp, rfl, rfl⟩
  rw [State.returns_trace, State.afterReads_one_trace, statusEvents_statusAnswer_zero]

end Sys2Proof.Machine

/-! Proofs of the statements on the outcomes of `Init` (44_init.md rules R205 to R208): the polls
that find the device ready lead to a set-up byte, and that byte's poll ends the sequence. -/

namespace Sys2Proof.Machine

/-! ## The set-up bytes reached by polls that find the device ready -/

theorem State.statusAnswer_resetQueue (s : State) (n : Nat) :
    s.resetQueue.statusAnswer n = s.statusAnswer n := rfl

/-- The bring-up leads to the first set-up byte, with no answer drawn. -/
theorem State.setUp_bringUp (s : State) :
    State.setUp setupBytes s.bringUp.resetQueue =
      State.setUp [0x28, 0x0F, 0x01] (s.resetQueue.onBus (bringUpEvents s.params)
        ⟨.low, .low, .output, .nibble 0b0010, .low⟩ (2 * 0)) := by
  rw [State.bringUp_resetQueue]
  rfl

section Reached

variable (s : State) {a b : Nat} (ha : a < s.params.initPollLimit)
  (hbusy : ∀ m < a, busy (s.statusAnswer m) = true) (hready : busy (s.statusAnswer a) = false)
include ha hbusy hready

theorem State.setUp_reaches_second :
    State.setUp setupBytes s.bringUp.resetQueue =
      State.setUp [0x0F, 0x01] (s.resetQueue.onBus
        (bringUpEvents s.params ++ s.setUpEvents 0x28 0 a)
        ⟨.low, .high, .input, .nibble 0x8, .low⟩ (2 * (a + 1))) := by
  rw [State.setUp_bringUp, State.setUp_ready_onBus 0x28 [0x0F, 0x01] s.resetQueue _ _ 0 ha,
    Nat.zero_add]
  · rfl
  · simpa only [Nat.zero_add, State.statusAnswer_resetQueue] using hbusy
  · simpa only [Nat.zero_add, State.statusAnswer_resetQueue] using hready

theorem State.setUp_reaches_third (hb : b < s.params.initPollLimit)
    (hbusy' : ∀ m < b, busy (s.statusAnswer (a + 1 + m)) = true)
    (hready' : busy (s.statusAnswer (a + 1 + b)) = false) :
    State.setUp setupBytes s.bringUp.resetQueue =
      State.setUp [0x01] (s.resetQueue.onBus
        (bringUpEvents s.params ++ s.setUpEvents 0x28 0 a ++ s.setUpEvents 0x0F (a + 1) b)
        ⟨.low, .high, .input, .nibble 0xF, .low⟩ (2 * (a + 1 + b + 1))) := by
  rw [s.setUp_reaches_second ha hbusy hready,
    State.setUp_ready_onBus 0x0F [0x01] s.resetQueue _ _ (a + 1) hb hbusy' hready']
  rfl

end Reached

/-! ## The poll that exhausts its limit -/

/-- A set-up byte sent after `n` status reads whose poll finds the device busy up to the limit: it
ends the sequence, and no further byte is sent. -/
theorem State.setUp_busy_onBus (b : Byte) (bs : List Byte) (s : State) (evs : List BusEvent)
    (bus : Bus) (n : Nat)
    (hb : ∀ m < s.params.initPollLimit, busy (s.statusAnswer (n + m)) = true) :
    ∃ bus' k, State.setUp (b :: bs) (s.onBus evs bus (2 * n)) = (false, s.onBus
      (evs ++ byteEvents false b ++ (List.range' n s.params.initPollLimit).flatMap fun k =>
        statusEvents (s.statusAnswer k)) bus' k) := by
  have hb' : ∀ m < s.params.initPollLimit,
      busy ((s.onBus evs bus (2 * n)).statusAnswer m) = true := by
    simpa only [State.statusAnswer_onBus] using hb
  rw [State.setUp_busy _ _ _ hb', State.sendByte_onBus, State.onBus_onBus, State.afterReads_onBus,
    State.onBus_onBus, Nat.add_zero, State.statusReads_onBus, State.onBus_params]
  exact ⟨_, _, rfl⟩

/-- `Init` that reaches set-up byte `b` with events `evs` emitted and `n` status bytes read, and
then finds the device busy up to the limit (44_init.md rule R208). -/
theorem exec_init_hardwareFault {s : State} (hp : s.phase = .uninit) {b : Byte} {bs : List Byte}
    {evs : List BusEvent} {bus : Bus} {n : Nat}
    (hreach : State.setUp setupBytes s.bringUp.resetQueue =
      State.setUp (b :: bs) (s.resetQueue.onBus evs bus (2 * n)))
    (hb : ∀ m < s.params.initPollLimit, busy (s.statusAnswer (n + m)) = true) :
    ∃ t, exec .init s = .next t ∧ t.phase = .uninit ∧ t.queue = [] ∧
      t.trace = s.trace ++ evs ++ byteEvents false b ++
        ((List.range' n s.params.initPollLimit).flatMap fun k => statusEvents (s.statusAnswer k)) ∧
      t.results = s.results ++ [⟨.operation .init, .hardwareFault⟩] := by
  obtain ⟨bus', k, hend⟩ := State.setUp_busy_onBus b bs s.resetQueue evs bus n hb
  refine ⟨_, execInit_uninit s hp (hreach.trans hend), hp, rfl, ?_, rfl⟩
  simp only [List.append_assoc]
  rfl

/-! ## The obligations -/

/-- Settles O37: the bring-up reaches the first set-up byte, whose poll exhausts its limit. -/
theorem initFailsOnADeviceThatStaysBusy : Obligations.InitFailsOnADeviceThatStaysBusy := by
  intro s hp hbusy
  obtain ⟨t, hn, hphase, hqueue, htrace, hresults⟩ :=
    exec_init_hardwareFault hp s.setUp_bringUp fun m hm => by
      rw [Nat.zero_add]
      exact hbusy m hm
  rw [← List.range_eq_range'] at htrace
  have hbringUp : (bringUpEvents s.params).length = 24 := rfl
  have hreads := s.statusReads_length s.params.initPollLimit
  rw [State.statusReads] at hreads
  refine ⟨t, hn, hphase, hqueue, htrace, ?_, hresults⟩
  rw [htrace, List.length_append, List.length_append, List.length_append, hbringUp, hreads,
    byteEvents_length]

/-- Settles O38: the polls that find the device ready reach the second or the third set-up byte,
whose poll exhausts its limit. -/
theorem initFailsAtALaterPoll : Obligations.InitFailsAtALaterPoll := by
  constructor
  · intro s a hp ha hready
    have hbusy : ∀ n < a + 1 + s.params.initPollLimit, n ≠ a → busy (s.statusAnswer n) = true :=
      fun n hn hne => by simpa [hne] using hready n hn
    obtain ⟨t, hn, hphase, hqueue, htrace, hresults⟩ :=
      exec_init_hardwareFault hp
        (s.setUp_reaches_second ha (fun m hm => hbusy m (by omega) (by omega))
          ((hready a (by omega)).mpr rfl))
        fun m hm => hbusy _ (by omega) (by omega)
    refine ⟨t, hn, hphase, hqueue, ?_, hresults⟩
    simpa only [State.setUpEvents, List.append_assoc] using htrace
  · intro s a b hp ha hb hready
    have hbusy : ∀ n < a + b + 2 + s.params.initPollLimit, n ≠ a → n ≠ a + b + 1 →
        busy (s.statusAnswer n) = true :=
      fun n hn hne hne' => by simpa [hne, hne'] using hready n hn
    have hreach := s.setUp_reaches_third ha (fun m hm => hbusy m (by omega) (by omega) (by omega))
      ((hready a (by omega)).mpr (.inl rfl)) hb
      (fun m hm => hbusy _ (by omega) (by omega) (by omega))
      ((hready _ (by omega)).mpr (.inr (by omega)))
    rw [show a + 1 + b + 1 = a + b + 2 by omega] at hreach
    obtain ⟨t, hn, hphase, hqueue, htrace, hresults⟩ :=
      exec_init_hardwareFault hp hreach fun m hm => hbusy _ (by omega) (by omega) (by omega)
    refine ⟨t, hn, hphase, hqueue, ?_, hresults⟩
    simpa only [State.setUpEvents, List.append_assoc] using htrace

/-- Settles O39: whatever the polls find, the set-up bytes only do bounded work on the bus, and
whether they all found the device ready picks the outcome. -/
theorem initEndsInOneOfTwoOutcomes : Obligations.InitEndsInOneOfTwoOutcomes := by
  intro s hp
  obtain ⟨evs, bus, n, hlength, hwork⟩ := State.setUp_frame setupBytes s.bringUp.resetQueue
  cases hs : State.setUp setupBytes s.bringUp.resetQueue with | mk ready u
  rw [hs, State.bringUp_resetQueue, State.onBus_onBus] at hwork
  obtain rfl : u = _ := hwork
  have hbound : evs.length ≤ 3 * (10 + 7 * s.params.initPollLimit) := by
    rw [State.bringUp_resetQueue] at hlength
    exact hlength
  refine ⟨_, evs, execInit_uninit s hp hs, ?_, Nat.add_le_add_left hbound 24, ?_⟩
  · cases ready <;> exact (List.append_assoc ..).symm
  · cases ready with
    | true => exact ⟨rfl, .inl ⟨rfl, rfl⟩⟩
    | false => exact ⟨rfl, .inr ⟨hp, rfl⟩⟩

end Sys2Proof.Machine

/-! Proofs of the statements on errors (60_exceptions.md): every answer of a host operation with the
cause of its code, what follows for the codes, their precision and good runs, and `FAULTED`. -/

namespace Sys2Proof.Machine

/-! ## The answers of a host operation -/

/-- A host operation that completes from `s` returns a code and leaves `t`: the causes of rule R234,
classes 2 to 6, or success. -/
inductive Answer (s : State) : Instr → ResultCode → State → Prop where
  /-- Classes 2 and 3: the prologue of an operation other than `Init`. -/
  | gated {i code} (hi : isHostOp i = true) (hne : i ≠ .init) (hg : gate s.phase = some code) :
    Answer s i code (s.returns (.operation i) code)
  /-- Classes 2 and 3: the prologue of `Init`. -/
  | initGated {code} (hg : initGate s.phase = some code) :
    Answer s .init code (s.returns (.operation .init) code)
  /-- Class 4: operand validation. -/
  | illFormed {i} (he : isEncoder i = true) (hp : s.phase = .ready) (hw : wellFormed i = false) :
    Answer s i (validationCode i) (s.returns (.operation i) (validationCode i))
  /-- Class 5: the queue has no room. -/
  | full {i} (he : isEncoder i = true) (hp : s.phase = .ready) (hw : wellFormed i = true)
    (hfull : s.params.qcap < s.count + (appends i).length) :
    Answer s i .queueFull (s.returns (.operation i) .queueFull)
  /-- Class 6: `Update` removed a word with an illegal tag. -/
  | illegalTag {t} (hp : s.phase = .ready) (hfaulted : t.phase = .faulted)
    (hresults : t.results = s.results ++ [⟨.operation .update, .protocolFault⟩]) :
    Answer s .update .protocolFault t
  /-- Class 6: `Init` found the device busy up to the limit. -/
  | deviceBusy {t} (hp : s.phase = .uninit)
    (hresults : t.results = s.results ++ [⟨.operation .init, .hardwareFault⟩]) :
    Answer s .init .hardwareFault t
  /-- No cause applies. -/
  | ok {i t} (hi : isHostOp i = true)
    (hresults : t.results = s.results ++ [⟨.operation i, .ok⟩]) : Answer s i .ok t

/-- R234: an operation returns exactly one code. -/
theorem Answer.results {s t : State} {i : Instr} {code : ResultCode} (h : Answer s i code t) :
    t.results = s.results ++ [⟨.operation i, code⟩] := by
  cases h with
  | illegalTag _ _ hresults => exact hresults
  | deviceBusy _ hresults => exact hresults
  | ok _ hresults => exact hresults
  | gated | initGated | illFormed | full => rfl

theorem isHostOp_of_isEncoder {i : Instr} (he : isEncoder i = true) : isHostOp i = true := by
  cases i <;> simp only [isEncoder, Bool.false_eq_true] at he <;> rfl

theorem execInit_answers {s t : State} (ht : exec .init s = .next t) :
    ∃ code, Answer s .init code t := by
  cases hg : initGate s.phase with
  | some code =>
    cases (exec_init_gated hg).symm.trans ht
    exact ⟨code, .initGated hg⟩
  | none =>
    have hp := initGate_eq_none_iff.mp hg
    obtain ⟨_, _, hn, _, _, _, ⟨_, hresults⟩ | ⟨_, hresults⟩⟩ := initEndsInOneOfTwoOutcomes s hp <;>
      cases hn.symm.trans ht
    · exact ⟨.ok, .ok rfl hresults⟩
    · exact ⟨.hardwareFault, .deviceBusy hp hresults⟩

theorem State.transmit_answers {s u : State} (hp : s.phase = .ready) (hu : s.Progress u)
    (w : EntryWord) : ∃ code, Answer s .update code (u.transmit w) := by
  cases hw : decodeEntry w with
  | some e =>
    rw [u.transmit_legal hw]
    exact ⟨.ok, .ok rfl (by simp [(hu.trans (u.progress_sendEntry e)).results])⟩
  | none =>
    rw [u.transmit_illegal hw]
    exact ⟨.protocolFault, .illegalTag hp rfl (by simp [hu.results])⟩

theorem execUpdate_answers {s t : State} (ht : exec .update s = .next t) :
    ∃ code, Answer s .update code t := by
  have hreads : s.Progress (s.afterReads 1) := s.progress_onBus _ _ _
  rcases execUpdate_cases s with ⟨code, hg, hn⟩ | ⟨_, _, hn⟩ | ⟨_, _, _, hn⟩ | ⟨_, _, _, f, _, hn⟩ |
    ⟨hp, _, _, w, _, hn⟩ <;> cases hn.symm.trans ht
  · exact ⟨code, .gated rfl (by decide) hg⟩
  · exact ⟨.ok, .ok rfl rfl⟩
  · exact ⟨.ok, .ok rfl rfl⟩
  · exact State.transmit_answers hp (hreads.trans (State.progress_dropHead _)) w

theorem exec_encoder_answers {i : Instr} {s t : State} (he : isEncoder i = true)
    (ht : exec i s = .next t) : ∃ code, Answer s i code t := by
  have hi := isHostOp_of_isEncoder he
  have hne : i ≠ .init := by rintro rfl; cases he
  cases hw : wellFormed i with
  | true =>
    rw [exec_encoder_wellFormed i s he hw] at ht
    rcases s.encoderOp_cases i none (appends i) with
      ⟨code, hn, hg | ⟨_, hcheck⟩ | ⟨hg, _, hfull, rfl⟩⟩ | ⟨_, _, _, hn⟩
    · cases hn.symm.trans ht
      exact ⟨code, .gated hi hne hg⟩
    · cases hcheck
    · cases hn.symm.trans ht
      exact ⟨.queueFull, .full he (gate_eq_none_iff.mp hg) hw hfull⟩
    · cases hn.symm.trans ht
      exact ⟨.ok, .ok hi (by simp)⟩
  | false =>
    obtain ⟨es, hes⟩ := exec_encoder_illFormed i s he hw
    rw [hes] at ht
    rcases s.encoderOp_cases i (some (validationCode i)) es with
      ⟨code, hn, hg | ⟨hg, hcheck⟩ | ⟨_, hcheck, _⟩⟩ | ⟨_, hcheck, _⟩
    · cases hn.symm.trans ht
      exact ⟨code, .gated hi hne hg⟩
    · cases hcheck
      cases hn.symm.trans ht
      exact ⟨_, .illFormed he (gate_eq_none_iff.mp hg) hw⟩
    · cases hcheck
    · cases hcheck

/-- Every host operation that completes gives one of the answers. -/
theorem exec_answers {i : Instr} {s t : State} (hi : isHostOp i = true) (ht : exec i s = .next t) :
    ∃ code, Answer s i code t := by
  rcases isHostOp_cases hi with rfl | rfl | he
  · exact execInit_answers ht
  · exact execUpdate_answers ht
  · exact exec_encoder_answers he ht

/-! ## The lists of codes (R233) -/

theorem ok_mem_possibleCodes {i : Instr} (hi : isHostOp i = true) : .ok ∈ possibleCodes i := by
  cases i <;> simp [isHostOp] at hi <;> simp [possibleCodes]

theorem gate_mem_possibleCodes {i : Instr} {p : Phase} {code : ResultCode}
    (hi : isHostOp i = true) (hne : i ≠ .init) (hg : gate p = some code) :
    code ∈ possibleCodes i := by
  have hcode : code = .protocolFault ∨ code = .notInitialized := by
    cases p <;> cases hg <;> simp
  rcases hcode with rfl | rfl <;> cases i <;> simp [isHostOp] at hi hne <;> simp [possibleCodes]

theorem initGate_mem_possibleCodes {p : Phase} {code : ResultCode} (hg : initGate p = some code) :
    code ∈ possibleCodes .init := by
  cases p <;> cases hg <;> decide

theorem queueFull_mem_possibleCodes {i : Instr} (he : isEncoder i = true) :
    .queueFull ∈ possibleCodes i := by
  cases i <;> simp [isEncoder] at he <;> simp [possibleCodes]

theorem validationCode_mem_possibleCodes {i : Instr} (hw : wellFormed i = false) :
    validationCode i ∈ possibleCodes i := by
  cases i <;> simp [wellFormed] at hw <;> simp [validationCode, possibleCodes]

theorem Answer.code_mem {s t : State} {i : Instr} {code : ResultCode} (h : Answer s i code t) :
    code ∈ possibleCodes i := by
  cases h with
  | gated hi hne hg => exact gate_mem_possibleCodes hi hne hg
  | initGated hg => exact initGate_mem_possibleCodes hg
  | illFormed _ _ hw => exact validationCode_mem_possibleCodes hw
  | full he => exact queueFull_mem_possibleCodes he
  | illegalTag => decide
  | deviceBusy => decide
  | ok hi => exact ok_mem_possibleCodes hi

/-! ## Good runs (R247) -/

theorem State.good_iff (s : State) :
    s.good = true ↔ s.phase ≠ .faulted ∧ ∀ r ∈ s.results, r.code.isFault = false := by
  simp [State.good]

/-- Of the answers in `READY` to a well-formed operation other than `Init`, only the illegal tag's is
a fault. -/
theorem Answer.isFault_eq_false {s t : State} {i : Instr} {code : ResultCode} (h : Answer s i code t)
    (hp : s.phase = .ready) (hne : i ≠ .init) (hw : wellFormed i = true)
    (hnot : t.phase ≠ .faulted) : code.isFault = false := by
  cases h with
  | gated _ _ hg => cases (gate_eq_none_iff.mpr hp).symm.trans hg
  | initGated => exact absurd rfl hne
  | illFormed _ _ hill => cases hw.symm.trans hill
  | full => rfl
  | illegalTag _ hfaulted => exact absurd hfaulted hnot
  | deviceBusy => exact absurd rfl hne
  | ok => rfl

/-! ## The obligations -/

/-- Settles O49: every answer has one code, and each cause gives a code of the operation's list. -/
theorem hostOperationsReturnOneOfTheirCodes : Obligations.HostOperationsReturnOneOfTheirCodes := by
  intro i s t hi ht
  obtain ⟨code, h⟩ := exec_answers hi ht
  exact ⟨code, h.code_mem, h.results⟩

/-- Settles O50: the answers of classes 2 to 5 are the state with the code recorded, and the others
are those the statement leaves out. -/
theorem errorsArePrecise : Obligations.ErrorsArePrecise := by
  intro i s t code hi ht hresults hok hhardware hupdate
  obtain ⟨code', h⟩ := exec_answers hi ht
  obtain rfl : code' = code := by simpa [h.results] using hresults
  cases h with
  | illegalTag hp => exact absurd ⟨rfl, hp⟩ hupdate
  | deviceBusy => exact absurd rfl hhardware
  | ok => exact absurd rfl hok
  | gated | initGated | illFormed | full => rfl

/-- Settles O52: the two changes of phase of the life cycle start outside `FAULTED`. -/
theorem faultedIsSticky : Obligations.FaultedIsSticky := by
  obtain ⟨-, -, hfaulted, hphase, -⟩ := lifeCycle
  refine ⟨hfaulted, fun s t => step_keeps (P := fun s => s.phase = .faulted) (fun _ _ h => h)
    (fun _ _ _ h => h) fun i s t h ht => ?_⟩
  rcases hphase i s t ht with hsame | ⟨_, huninit, _⟩ | ⟨_, hready, _⟩
  · exact hsame.trans h
  · cases h.symm.trans huninit
  · cases h.symm.trans hready

/-- Settles O60: a sound state cannot reach `FAULTED`, so the phase stays and the code recorded is no
fault. -/
theorem wellFormedUseStaysGood : Obligations.WellFormedUseStaysGood := by
  intro i s t hs hgood hp hi hne hw ht
  obtain ⟨-, -, -, hphase, -⟩ := lifeCycle
  have hnot : t.phase ≠ .faulted := (exec_keeps_inv i s t hs ht).not_faulted
  have hready : t.phase = .ready := by
    rcases hphase i s t ht with hsame | ⟨hinit, _⟩ | ⟨_, _, hfaulted⟩
    · exact hsame.trans hp
    · exact absurd hinit hne
    · exact absurd hfaulted hnot
  obtain ⟨-, hbefore⟩ := s.good_iff.mp hgood
  obtain ⟨code, h⟩ := exec_answers hi ht
  refine ⟨t.good_iff.mpr ⟨hnot, fun r hr => ?_⟩, hready⟩
  rw [h.results, List.mem_append, List.mem_singleton] at hr
  rcases hr with hr | rfl
  · exact hbefore r hr
  · exact h.isFault_eq_false hp hne hw hnot

/-- Settles O4: the step takes the word, decoding rejects it, and the rejection of a host word is its
code. -/
theorem illegalHostWordReturnsItsCode : Obligations.IllegalHostWordReturnsItsCode :=
  fun _ _ _ _ hp hd => ⟨step_rejects hp hd, rfl⟩

/-- Settles O48: the table of the codes, evaluated. -/
theorem resultCodesHaveTheirNumbers : Obligations.ResultCodesHaveTheirNumbers := by
  unfold Obligations.ResultCodesHaveTheirNumbers
  decide

end Sys2Proof.Machine

/-! Proof of the statement on waiting (70_reset_and_hazards.md rule R271). -/

namespace Sys2Proof.Machine

/-- Settles O3: `step` fetches first, and an empty list of presented words gives it nothing to
decode. -/
theorem stepWaitsForTheHost : Obligations.StepWaitsForTheHost :=
  fun _ hp => step_waits hp

end Sys2Proof.Machine
